-- ==== Sys2Proof/Word.lean ====
section
/-! DEFINITION. The two widths the homohash core works in: bytes (field elements, stream and buffer units; 00_scope.md
section 5, 40_field_arithmetic.md R40) and 32-bit words (state words and command words; 10_state.md R10, 30_encoding.md R30). -/

namespace Sys2Proof

/-- A byte, also a field element of GF(256): bit k is the coefficient of x^k (40_field_arithmetic.md R40). -/
abbrev Byte := BitVec 8

/-- A 32-bit word: one of `H[0..7]` or a command word. -/
abbrev Word := BitVec 32

end Sys2Proof
end

