-- ==== Sys2Proof/Machine/Bytes.lean ====
section
/-! DEFINITION. Byte order. Every multi-byte integer on a stream, in the digest and in the blob is big-endian, most significant
byte first (20_memory.md R21). These are the only definitions that decide it. -/

namespace Sys2Proof

/-- The `k`-byte big-endian image of `v mod 2^(8k)` (00_scope.md section 5, `be32`, `be64`, `MemWrite`). -/
def beBytes : Nat → Nat → List Byte
  | 0, _ => []
  | k + 1, v => BitVec.ofNat 8 (v >>> (8 * k)) :: beBytes k v

/-- A byte sequence read as one big-endian unsigned integer (00_scope.md section 5, `MemRead`). -/
def beNat (bs : List Byte) : Nat :=
  bs.foldl (fun v b => v * 256 + b.toNat) 0

/-- `MemRead(addr, n)` of a blob image: the `n` bytes at offsets `addr .. addr+n-1` as one big-endian integer. -/
def memRead (blob : List Byte) (addr n : Nat) : Nat :=
  beNat ((blob.drop addr).take n)

/-- The first `n` bytes of a stream and what is left of it, or none where fewer are there. -/
def splitBytes (bs : List Byte) (n : Nat) : Option (List Byte × List Byte) :=
  if bs.length < n then none else some (bs.take n, bs.drop n)

end Sys2Proof
end

