-- ==== Sys2Proof/Config.lean ====
section
/-! DEFINITION. What the hardware fixes for good: the constants of 00_scope.md R3, R7 and R8, and the three open design
parameters `POLY`, `PERM` and `COEF` (R4, R5, R6), which no command changes (R9). -/

namespace Sys2Proof

/-- `SIZE`, the digest length in bytes (00_scope.md R3). -/
def digestSize : Nat := 32

/-- `BLOCK`, the input block length in bytes (00_scope.md R3). -/
def blockSize : Nat := 64

/-- `BLOBLEN`, the length of the serialized state in bytes (00_scope.md R3). -/
def blobSize : Nat := 108

/-- `LMAX`, the largest payload length a command word can name (00_scope.md R8). -/
def lmax : Nat := 16777215

/-- `TAG`, the four bytes of the ASCII literal `homo` (00_scope.md R7). -/
def tag : List Byte := [0x68, 0x6F, 0x6D, 0x6F]

/-! ## Polynomials over GF(2) -/

/-- The carry-less product of two polynomials of degree at most 7; its degree is at most 14 (40_field_arithmetic.md R42,
the definition). -/
def clmul (a b : Byte) : BitVec 16 :=
  (List.range 8).foldl (fun r k => if b.getLsbD k then r ^^^ (a.setWidth 16 <<< k) else r) 0

/-- `polyRem m deg k a` cancels the coefficients of `x^(deg+k-1), ..., x^deg` of `a`, the highest first, by adding shifted
copies of `m`, whose degree is `deg`. Where `a` has a degree below `deg + k` the result is the remainder of `a` by `m`. -/
def polyRem (m : BitVec 16) (deg : Nat) : Nat → BitVec 16 → BitVec 16
  | 0, a => a
  | k + 1, a => polyRem m deg k (if a.getLsbD (deg + k) then a ^^^ (m <<< k) else a)

/-- The 9-bit value `p` is an irreducible polynomial of degree 8: bit 8 is set and no polynomial of degree 1 to 4 (the bit
patterns 2 to 31) divides it (00_scope.md R4, by the trial division R4 names). DEDUCED, notes/assumptions/9.md. -/
def isIrreducible (p : BitVec 9) : Bool :=
  p.getLsbD 8 && (List.range 30).all fun j =>
    polyRem (BitVec.ofNat 16 (j + 2)) (Nat.log2 (j + 2)) (9 - Nat.log2 (j + 2)) (p.setWidth 16) != 0

/-! ## The configuration -/

/-- The identity is a permutation (the witness for the default of `Config.perm_bijective`). -/
theorem identity_table_bijective :
    Function.Bijective fun i : Fin 64 => (Vector.ofFn (id : Fin 64 → Fin 64))[i] := by
  refine Function.bijective_iff_has_inverse.mpr ⟨id, fun i => ?_, fun i => ?_⟩ <;> simp

/-- `Config = (POLY, PERM, COEF)`, fixed for the life of a block (00_scope.md R4 to R6, R9). The two proof fields are the
constraints R4 and R5 state; R6 states none on `COEF`. The default values only witness that an admissible configuration exists
(`opaque` asks for that); no definition and no statement of the model uses them. -/
structure Config where
  /-- `POLY`, the field polynomial, bit k the coefficient of x^k (R4). -/
  poly : BitVec 9 := 0x11B
  /-- `PERM`, the permutation ROM: output position to block offset (R5, 10_state.md R17). -/
  perm : Vector (Fin 64) 64 := Vector.ofFn id
  /-- `COEF`, the coefficient ROM: output position to field element (R6, 10_state.md R17). -/
  coef : Vector Byte 64 := Vector.ofFn fun _ => 0
  /-- `POLY` is irreducible of degree 8 (R4). -/
  poly_irreducible : isIrreducible poly = true := by decide
  /-- `PERM` is a bijection of 0..63 (R5). -/
  perm_bijective : Function.Bijective fun i : Fin 64 => perm[i] := by exact identity_table_bijective
  deriving Inhabited

/-- The configuration the modelled block is built with. The source gives no value of `POLY`, `PERM` or `COEF` (00_scope.md R4
to R6, 93_implementation_defined.md U2), so it is a free value: nothing in Lean can compute it, and whatever is proved of the
machine holds for every admissible configuration. DESIGN CHOICE, notes/assumptions/1.md. -/
opaque Config.chip : Config

end Sys2Proof
end

