-- ==== Sys2Proof/Syntax.lean ====
section
/-! DEFINITION. The nine commands of command set HHC-1 (30_encoding.md R33), one constructor per row of the opcode table. -/

namespace Sys2Proof

/-- The three command formats (30_encoding.md R30). -/
inductive Format where
  /-- No operand. -/
  | z
  /-- Two field operands. -/
  | f
  /-- A payload length, and the payload behind the word. -/
  | l
  deriving DecidableEq, Repr

/-- A command word, decoded. A format-L command carries its payload length `n`; the payload itself is the next `n` bytes of
the command stream (30_encoding.md R31). DESIGN CHOICE, notes/assumptions/10.md. -/
inductive Instr where
  /-- Field addition (40_field_arithmetic.md R41). -/
  | gfadd (a b : Byte)
  /-- Field multiplication (R42). -/
  | gfmul (a b : Byte)
  /-- Ingest `n` bytes (42_accumulator.md R60). -/
  | write (n : Nat)
  /-- Emit the digest (R61). -/
  | sum
  /-- Return to the fresh state (R62). -/
  | reset
  /-- Report the digest length (R63). -/
  | size
  /-- Report the block length (R64). -/
  | blocksize
  /-- Emit the blob (43_codec.md R70). -/
  | marshal
  /-- Load the state from a blob of `n` bytes (R71). -/
  | unmarshal (n : Nat)
  deriving DecidableEq, Repr

/-- The format of each command (30_encoding.md R33). -/
def Instr.format : Instr → Format
  | .gfadd _ _ => .f
  | .gfmul _ _ => .f
  | .write _ => .l
  | .sum => .z
  | .reset => .z
  | .size => .z
  | .blocksize => .z
  | .marshal => .z
  | .unmarshal _ => .l

/-- How many payload bytes follow the command word (30_encoding.md R30, R31). -/
def Instr.payloadLength : Instr → Nat
  | .gfadd _ _ => 0
  | .gfmul _ _ => 0
  | .write n => n
  | .sum => 0
  | .reset => 0
  | .size => 0
  | .blocksize => 0
  | .marshal => 0
  | .unmarshal n => n

end Sys2Proof
end

