-- ==== Sys2Proof/WellFormed.lean ====
section
/-! DEFINITION. Which command terms a command word can encode: the payload length of format L is at most `LMAX`
(30_encoding.md R30, R36). Field operands are bytes, all 256 values valid (40_field_arithmetic.md R40), and format Z has no
operand, so there is nothing else to check. -/

namespace Sys2Proof

/-- The command has a command word: its payload length fits the 24-bit length field. -/
def Instr.wellFormed (i : Instr) : Bool :=
  decide (i.payloadLength ≤ lmax)

end Sys2Proof
end

