-- ==== Sys2Proof/Decode.lean ====
section
/-! DEFINITION. The command decoder (30_encoding.md R30, R33, R35, R37), total on any bytes, and the encoder, each written from
the encoding table of R30 and the opcode map of R33. Decoding depends on no state (R37). -/

namespace Sys2Proof

/-- Why a command word is illegal (30_encoding.md R35). -/
inductive Reject where
  /-- R35 (a): the opcode is not one of the nine. -/
  | unknownOpcode
  /-- R35 (b): a format-Z opcode with `arg != 0`. -/
  | nonzeroArg
  /-- R35 (c): a format-F opcode with `arg[7:0] != 0`. -/
  | nonzeroLowByte
  deriving DecidableEq, Repr

/-- What the decoder finds at the head of the command stream. -/
inductive Decoded where
  /-- A legal command word; `rest` begins with its payload. -/
  | command (i : Instr) (rest : List Byte)
  /-- An illegal command word; `rest` is what follows its four bytes. -/
  | illegal (why : Reject) (rest : List Byte)
  /-- Fewer than the four bytes of a command word. -/
  | incomplete
  deriving DecidableEq, Repr

/-- Field `op`, bits 31:24 of the command word (R30). -/
def opField (w : Word) : Byte := w.extractLsb' 24 8

/-- Field `arg`, bits 23:0 (R30). -/
def argField (w : Word) : BitVec 24 := w.extractLsb' 0 24

/-- Format-F operand `a`, bits 23:16 (R30). -/
def aField (w : Word) : Byte := w.extractLsb' 16 8

/-- Format-F operand `b`, bits 15:8 (R30). -/
def bField (w : Word) : Byte := w.extractLsb' 8 8

/-- The byte of format F that must be zero, bits 7:0 (R30). -/
def lowField (w : Word) : Byte := w.extractLsb' 0 8

/-- Format Z: `arg` must be zero (R30, R35 (b)). -/
def decodeZ (w : Word) (i : Instr) : Except Reject Instr :=
  if argField w = 0 then .ok i else .error .nonzeroArg

/-- Format F: `a` and `b` as they stand, the low byte zero (R30, R35 (c)). -/
def decodeF (w : Word) (f : Byte → Byte → Instr) : Except Reject Instr :=
  if lowField w = 0 then .ok (f (aField w) (bField w)) else .error .nonzeroLowByte

/-- Format L: `n` is the 24-bit `arg`, unsigned; every value is legal (R30, R36). -/
def decodeL (w : Word) (f : Nat → Instr) : Except Reject Instr :=
  .ok (f (argField w).toNat)

/-- One command word to its command, or the reason it is illegal (R33, R35). -/
def decodeWord (w : Word) : Except Reject Instr :=
  if opField w = 0x01 then decodeF w .gfadd
  else if opField w = 0x02 then decodeF w .gfmul
  else if opField w = 0x10 then decodeL w .write
  else if opField w = 0x11 then decodeZ w .sum
  else if opField w = 0x12 then decodeZ w .reset
  else if opField w = 0x13 then decodeZ w .size
  else if opField w = 0x14 then decodeZ w .blocksize
  else if opField w = 0x20 then decodeZ w .marshal
  else if opField w = 0x21 then decodeL w .unmarshal
  else .error .unknownOpcode

/-- The command word whose four bytes arrive in this order: most significant byte first (R30, 20_memory.md R21). -/
def wordOfBytes (b0 b1 b2 b3 : Byte) : Word := b0 ++ b1 ++ b2 ++ b3

/-- The head of the command stream: read four bytes, look the word up (R37). -/
def decode : List Byte → Decoded
  | b0 :: b1 :: b2 :: b3 :: rest =>
    match decodeWord (wordOfBytes b0 b1 b2 b3) with
    | .ok i => .command i rest
    | .error why => .illegal why rest
  | _ => .incomplete

/-! ## The encoder -/

/-- A format-Z word: the opcode over three zero bytes (R30). -/
def encodeZ (op : Byte) : Word := op ++ (0 : BitVec 24)

/-- A format-F word: opcode, `a`, `b`, a zero byte (R30). -/
def encodeF (op a b : Byte) : Word := op ++ a ++ b ++ (0 : Byte)

/-- A format-L word: opcode over the 24-bit length (R30). -/
def encodeL (op : Byte) (n : Nat) : Word := op ++ BitVec.ofNat 24 n

/-- The command word of each command, with the opcodes of R33. -/
def encodeWord : Instr → Word
  | .gfadd a b => encodeF 0x01 a b
  | .gfmul a b => encodeF 0x02 a b
  | .write n => encodeL 0x10 n
  | .sum => encodeZ 0x11
  | .reset => encodeZ 0x12
  | .size => encodeZ 0x13
  | .blocksize => encodeZ 0x14
  | .marshal => encodeZ 0x20
  | .unmarshal n => encodeL 0x21 n

/-- The four bytes of the command word as they are sent (R30); a format-L payload follows them. -/
def encode (i : Instr) : List Byte :=
  beBytes 4 (encodeWord i).toNat

/-! ## The host's numbering of an instruction's bits -/

/-- The bytes of a command whose bits are `w mod 2^nbits`, as they stand on the command stream: the 32-bit word (bits 31..0),
most significant byte first, then the payload the word asks for, payload byte `k` from bits `32+8k+7 .. 32+8k`
(notes/assumptions/12.md). -/
def tableBytes (nbits w : Nat) : List Byte :=
  let v := w % 2 ^ nbits
  let word := BitVec.ofNat 32 v
  let n := match decodeWord word with
    | .ok i => i.payloadLength
    | .error _ => 0
  beBytes 4 word.toNat ++ (List.range n).map fun k => BitVec.ofNat 8 (v >>> (32 + 8 * k))

/-- The command the decoder reads from the bits `w`; none where the word is illegal. -/
def decodeTableWord (nbits w : Nat) : Option Instr :=
  match decode (tableBytes nbits w) with
  | .command i _ => some i
  | .illegal _ _ => none
  | .incomplete => none

end Sys2Proof
end

