-- ==== Sys2Proof/Machine/State.lean ====
section
/-! DEFINITION. The state of the homohash core: the accumulator context `H`, `X`, `LEN` (10_state.md), the two streams
(20_memory.md R20), the command the decoder has in progress and the hardware reset input (70_reset_and_hazards.md R100, R101),
and the reasons a step may stop. -/

namespace Sys2Proof.Machine

/-- The one accumulator context (00_scope.md R8). `NX` and `FRESH` are derived from `LEN` and not stored (10_state.md R14,
R15); see Machine/Flags.lean. -/
structure Accumulator where
  /-- `H[0..7]`, the running state (10_state.md R10). -/
  h : Vector Word 8
  /-- `X[0..63]`, the partial-block buffer (10_state.md R12). -/
  x : Vector Byte 64
  /-- `LEN`, the total byte counter (10_state.md R13). -/
  len : BitVec 64
  deriving DecidableEq, Repr

/-- The whole machine. -/
structure State where
  /-- `H`, `X`, `LEN`. -/
  acc : Accumulator
  /-- The command stream: bytes the host has sent and the block has not taken, earliest first (20_memory.md R20, R22). -/
  input : List Byte
  /-- The response stream: bytes the block has sent and the host has not received, earliest first (20_memory.md R20). -/
  output : List Byte
  /-- The command decoder (R100): none is idle, expecting a command word; `some i` is a command in progress whose word has been
  taken and whose payload has not all arrived (93_implementation_defined.md U9). DEDUCED, notes/assumptions/3.md. -/
  pending : Option Instr
  /-- The hardware reset signal, asserted by the host (70_reset_and_hazards.md R101, R111). DEDUCED, notes/assumptions/4.md. -/
  resetLine : Bool
  deriving DecidableEq, Repr

/-- No command can stop the block: every result, every error included, is a response, and nothing else can fail
(60_exceptions.md R95, R97, R99). So there is no fault: the type has no constructor. DEDUCED, notes/assumptions/7.md. -/
inductive Fault where
  deriving DecidableEq, Repr

/-- Why a step has no meaning. -/
inductive Refusal where
  /-- Raised by `exec` alone, for a command that has no meaning in the model. Safe: nothing is claimed of such a step. No arm
  of `exec` raises it: all nine commands are modelled. -/
  | notModelled (mnemonic : String)
  deriving DecidableEq, Repr

/-- `status` of the response word (60_exceptions.md R90). -/
inductive Status where
  /-- The command completed. -/
  | ok
  /-- UNMARSHAL: the payload does not start with the tag (R91). -/
  | invalidTag
  /-- UNMARSHAL: the tag is right and the payload is not 108 bytes (R92). -/
  | invalidLength
  /-- The decoder: the command word matches no row of the opcode table (R93). -/
  | illegalCommand
  deriving DecidableEq, Repr

/-- The fresh context: `H = 0`, `LEN = 0`, and `X` zero, which R100 sets so that a model has a definite initial value
(70_reset_and_hazards.md R100). -/
def Accumulator.fresh : Accumulator where
  h := Vector.replicate 8 0
  x := Vector.replicate 64 0
  len := 0

/-- After hardware reset: the fresh context, the decoder idle, no response pending (R100). The command stream is empty and the
reset signal released (notes/assumptions/4.md). -/
def State.reset : State where
  acc := Accumulator.fresh
  input := []
  output := []
  pending := none
  resetLine := false

end Sys2Proof.Machine
end

