-- ==== Sys2Proof/Machine/Operands.lean ====
section
/-! DEFINITION. How commands reach their operands. Format F carries its operands in the word (Decode.lean); format L takes its
payload from the command stream (`State.takePayload`); and every command reads and writes `H` through its byte view `s`
(10_state.md R11). -/

namespace Sys2Proof.Machine

/-- State byte `s[i]`: byte `i mod 4` of word `H[i div 4]`, counted from the most significant byte (10_state.md R11). -/
def stateByte (h : Vector Word 8) (i : Fin 32) : Byte :=
  (h[i.val / 4]).extractLsb' (24 - 8 * (i.val % 4)) 8

/-- The byte view `s[0..32)` of `H` (10_state.md R11). -/
def bytesOfWords (h : Vector Word 8) : Vector Byte 32 :=
  Vector.ofFn fun i => stateByte h i

/-- `H` as the byte view determines it: `H[j] = s[4j] ++ s[4j+1] ++ s[4j+2] ++ s[4j+3]` (10_state.md R11). -/
def wordsOfBytes (s : Vector Byte 32) : Vector Word 8 :=
  Vector.ofFn fun j => s[4 * j.val] ++ s[4 * j.val + 1] ++ s[4 * j.val + 2] ++ s[4 * j.val + 3]

/-- `s[0..32)` of a context. -/
def Accumulator.s (a : Accumulator) : Vector Byte 32 := bytesOfWords a.h

/-- `s[0..32) <- v`. -/
def Accumulator.setS (a : Accumulator) (v : Vector Byte 32) : Accumulator :=
  { a with h := wordsOfBytes v }

/-- The `n` payload bytes at the head of the command stream and the state that has consumed them, or none where they have not
all arrived (30_encoding.md R31). -/
def State.takePayload (s : State) (n : Nat) : Option (List Byte × State) :=
  match splitBytes s.input n with
  | none => none
  | some (d, rest) => some (d, { s with input := rest })

end Sys2Proof.Machine
end

