-- ==== Sys2Proof/Machine/Ops.lean ====
section
/-! DEFINITION. The operations every command shares: the response that ends a command, raising an error, waiting for a payload,
what the decoder does at the head of the command stream, hardware reset, and the host's moves. -/

namespace Sys2Proof.Machine

/-- The numeric status codes (60_exceptions.md R90). -/
def Status.code : Status → Byte
  | .ok => 0
  | .invalidTag => 1
  | .invalidLength => 2
  | .illegalCommand => 3

/-- The response word as it is sent: `status`, then the 24-bit `value` most significant byte first (30_encoding.md R32). -/
def responseWord (st : Status) (value : Nat) : List Byte :=
  st.code :: beBytes 3 value

/-- `respond(status, value, bytes)`: end the command and send its response (00_scope.md section 5, 30_encoding.md R32). The
decoder is idle afterwards. -/
def State.respond (s : State) (st : Status) (value : Nat) (payload : List Byte) : State :=
  { s with output := s.output ++ (responseWord st value ++ payload), pending := none }

/-- `raise <Error>`, the error entry of 60_exceptions.md R95: the command ends, `H`, `X` and `LEN` keep their values, and the
response is the error's status with `value = 0` and no payload. Nothing is saved and no control goes to a handler; the next
command follows (R96), so there is no return from an error. -/
def State.raise (s : State) (e : Status) : State :=
  s.respond e 0 []

/-- The block waits for the missing bytes of command `i`'s payload (93_implementation_defined.md U9). -/
def State.await (s : State) (i : Instr) : State :=
  { s with pending := some i }

/-- A format-L command `i`: once its whole payload has arrived, `k` runs on the payload and the state that has consumed it; until
then the block waits (30_encoding.md R31, R37). -/
def State.withPayload (s : State) (i : Instr) (k : List Byte → State → State) : State :=
  match s.takePayload i.payloadLength with
  | none => s.await i
  | some (d, s') => k d s'

/-- The state with the context replaced. -/
def State.withAcc (s : State) (a : Accumulator) : State :=
  { s with acc := a }

/-- The state with `rest` left on the command stream. -/
def State.withInput (s : State) (rest : List Byte) : State :=
  { s with input := rest }

/-- An illegal command word: its four bytes are consumed (`rest` is what follows them), no state changes and the answer is
`IllegalCommand` (30_encoding.md R35, 60_exceptions.md R93). -/
def State.illegalWord (s : State) (rest : List Byte) : State :=
  (s.withInput rest).raise .illegalCommand

/-- Hardware reset: every field as R100 says, any command in progress abandoned with no response (70_reset_and_hazards.md R100,
R101). -/
def State.hardwareReset (_ : State) : State := State.reset

/-! ## The host's moves (70_reset_and_hazards.md R111) -/

/-- The host sends bytes of a command: word or payload. -/
def State.hostSend (s : State) (bs : List Byte) : State :=
  { s with input := s.input ++ bs }

/-- The host receives the next `n` bytes of the response stream. -/
def State.hostReceive (s : State) (n : Nat) : List Byte × State :=
  (s.output.take n, { s with output := s.output.drop n })

/-- The host asserts hardware reset; the next step performs it. -/
def State.hostReset (s : State) : State :=
  { s with resetLine := true }

/-- The host has the command bits `w` (numbered as the opcode table numbers them) next on the command stream, with the decoder
idle and the reset signal released, so that the next step takes exactly that command. -/
def State.presentWord (s : State) (nbits w : Nat) : State :=
  { s with input := tableBytes nbits w ++ s.input, pending := none, resetLine := false }

end Sys2Proof.Machine
end

