-- ==== Sys2Proof/Machine/Field.lean ====
section
/-! DEFINITION. The GF(256) adder and multiplier and the commands GFADD and GFMUL (40_field_arithmetic.md). -/

namespace Sys2Proof.Machine

/-- `gfadd(a, b) = a ^ b` (40_field_arithmetic.md R41). -/
def gfadd (a b : Byte) : Byte := a ^^^ b

/-- `xtime(t)`: multiply by x modulo `POLY` (40_field_arithmetic.md R42). -/
def xtime (poly : BitVec 9) (t : Byte) : Byte :=
  if t.getLsbD 7 then (t <<< 1) ^^^ poly.setWidth 8 else t <<< 1

/-- One turn of the loop of `gfmul`, on `(r, t)`: add `t = a * x^k` where bit `k` of `b` is set, then `t <- xtime(t)` (R42). -/
def gfmulStep (poly : BitVec 9) (b : Byte) (rt : Byte × Byte) (k : Nat) : Byte × Byte :=
  (if b.getLsbD k then rt.1 ^^^ rt.2 else rt.1, xtime poly rt.2)

/-- `gfmul(a, b)` by the shift-and-add algorithm of R42. -/
def gfmul (poly : BitVec 9) (a b : Byte) : Byte :=
  ((List.range 8).foldl (gfmulStep poly b) (0, a)).1

/-- GFADD (R41): `respond(OK, zext_24(gfadd(a, b)), empty)`. -/
def execGfadd (a b : Byte) (s : State) : Host.Outcome State Fault Refusal :=
  .next (s.respond .ok (gfadd a b).toNat [])

/-- GFMUL under a configuration (R42): `respond(OK, zext_24(gfmul(a, b)), empty)`. -/
def State.multiply (s : State) (c : Config) (a b : Byte) : State :=
  s.respond .ok (gfmul c.poly a b).toNat []

/-- GFMUL (R42) with the block's own `POLY`. -/
def execGfmul (a b : Byte) (s : State) : Host.Outcome State Fault Refusal :=
  .next (s.multiply Config.chip a b)

end Sys2Proof.Machine
end

