-- ==== Sys2Proof/Machine/Compression.lean ====
section
/-! DEFINITION. The block-compression pipeline: the micro-operations FOLD, SEED and PADBLOCK (41_compression.md). They have no
command encoding (30_encoding.md R34). -/

namespace Sys2Proof.Machine

/-- `FOLD(h, p)`: lane `i` becomes `h[i] (+) (p[PERM[i]] (*) COEF[i])`; only entries 0..31 of the ROMs are read
(41_compression.md R50, R53). -/
def fold (c : Config) (h : Vector Byte 32) (p : Vector Byte 64) : Vector Byte 32 :=
  Vector.ofFn fun i => gfadd h[i.val] (gfmul c.poly p[(c.perm[i.val]).val] c.coef[i.val])

/-- `SEED(b)`: lane `i` becomes `b (*) COEF[i]`, whatever the state was (41_compression.md R51). -/
def seed (c : Config) (b : Byte) : Vector Byte 32 :=
  Vector.ofFn fun i => gfmul c.poly b c.coef[i.val]

/-- `PADBLOCK(x, nx)`: the first `nx` bytes of the buffer, then zeros (41_compression.md R52). -/
def padblock (x : Vector Byte 64) (nx : Nat) : Vector Byte 64 :=
  Vector.ofFn fun j => if j.val < nx then x[j.val] else 0

end Sys2Proof.Machine
end

