-- ==== Sys2Proof/Machine/Flags.lean ====
section
/-! DEFINITION. The block has no condition flags (10_state.md R19). What commands test are two values derived from `LEN`, held
nowhere (R14, R15), and the valid part of the buffer they mark off (R12). -/

namespace Sys2Proof.Machine

/-- `NX = LEN mod 64`, the count of valid buffer bytes (10_state.md R14, 43_codec.md R74). -/
def Accumulator.nx (a : Accumulator) : Nat := a.len.toNat % 64

/-- `FRESH = (LEN = 0)` (10_state.md R15). -/
def Accumulator.isFresh (a : Accumulator) : Bool := a.len == 0

/-- `X[0..NX)`, the bytes that can be observed (10_state.md R12, R16). -/
def Accumulator.valid (a : Accumulator) : List Byte := a.x.toList.take a.nx

end Sys2Proof.Machine
end

