-- ==== Sys2Proof/Machine/Accumulator.lean ====
section
/-! DEFINITION. The streaming accumulator and the commands WRITE, SUM, RESET, SIZE and BLOCKSIZE (42_accumulator.md). -/

namespace Sys2Proof.Machine

/-- One turn of the loop of WRITE (42_accumulator.md R60): the byte goes to `X[LEN mod 64]`, `LEN` counts it modulo 2^64, and
where `LEN mod 64` comes to 0 the whole buffer is folded (20_memory.md R24). -/
def Accumulator.ingest (c : Config) (a : Accumulator) (b : Byte) : Accumulator :=
  let x := a.x.set (a.len.toNat % 64) b (Nat.mod_lt _ (by decide))
  let a' : Accumulator := { a with x := x, len := a.len + 1 }
  if a'.nx = 0 then a'.setS (fold c a'.s a'.x) else a'

/-- The seed of WRITE: a payload of at least one byte that finds `LEN = 0` sets the state to the seed of its first byte (R60,
41_compression.md R51). An empty payload seeds nothing (R60 corner case (a)). -/
def Accumulator.seedFirst (c : Config) (d : List Byte) (a : Accumulator) : Accumulator :=
  match d with
  | [] => a
  | b :: _ => if a.isFresh then a.setS (seed c b) else a

/-- WRITE's effect on the context: the seed, then the loop over the payload in order (R60). -/
def Accumulator.write (c : Config) (d : List Byte) (a : Accumulator) : Accumulator :=
  d.foldl (Accumulator.ingest c) (a.seedFirst c d)

/-- The digest SUM emits, computed on a private copy of the state bytes: the padded last block is folded into it where the
buffer is not empty (R61). -/
def Accumulator.digest (c : Config) (a : Accumulator) : Vector Byte 32 :=
  if a.nx = 0 then a.s else fold c a.s (padblock a.x a.nx)

/-- RESET's effect on the context: `H` and `LEN` become 0; the bytes of `X` are left as they are, all of them in the
unobservable tail (R62, 10_state.md R16). DESIGN CHOICE, notes/assumptions/5.md. -/
def Accumulator.clear (a : Accumulator) : Accumulator :=
  { a with h := Vector.replicate 8 0, len := 0 }

/-- WRITE under a configuration (R60): take the payload, ingest it, answer the count. Until the payload is complete the block
waits. -/
def State.writePayload (s : State) (c : Config) (n : Nat) : State :=
  s.withPayload (.write n) fun d s' => (s'.withAcc (s'.acc.write c d)).respond .ok n []

/-- SUM under a configuration (R61): `value = 32` and the 32 digest bytes in index order; no state is written. -/
def State.answerDigest (s : State) (c : Config) : State :=
  s.respond .ok digestSize (s.acc.digest c).toList

/-- WRITE (R60) with the block's own configuration. -/
def execWrite (n : Nat) (s : State) : Host.Outcome State Fault Refusal :=
  .next (s.writePayload Config.chip n)

/-- SUM (R61) with the block's own configuration. -/
def execSum (s : State) : Host.Outcome State Fault Refusal :=
  .next (s.answerDigest Config.chip)

/-- RESET (R62): back to the fresh state, `value = 0`. -/
def execReset (s : State) : Host.Outcome State Fault Refusal :=
  .next ((s.withAcc s.acc.clear).respond .ok 0 [])

/-- SIZE (R63): `respond(OK, 32, empty)`. -/
def execSize (s : State) : Host.Outcome State Fault Refusal :=
  .next (s.respond .ok digestSize [])

/-- BLOCKSIZE (R64): `respond(OK, 64, empty)`. -/
def execBlocksize (s : State) : Host.Outcome State Fault Refusal :=
  .next (s.respond .ok blockSize [])

end Sys2Proof.Machine
end

