-- ==== Sys2Proof/Machine/Codec.lean ====
section
/-! DEFINITION. The state codec and the commands MARSHAL and UNMARSHAL (43_codec.md), over the blob layout of 20_memory.md R23. -/

namespace Sys2Proof.Machine

/-- The blob MARSHAL emits: tag, the eight state words, the valid buffer bytes filled with zeros to 64, the counter
(43_codec.md R70, 20_memory.md R23). -/
def Accumulator.marshal (a : Accumulator) : List Byte :=
  tag ++ a.h.toList.flatMap (fun w => beBytes 4 w.toNat) ++ (padblock a.x a.nx).toList ++ beBytes 8 a.len.toNat

/-- The context a 108-byte blob describes: `H[j]` at offset `4+4j`, `X[j]` at `36+j`, `LEN` at 100, all big-endian
(43_codec.md R71). -/
def Accumulator.ofBlob (b : List Byte) : Accumulator where
  h := Vector.ofFn fun j => BitVec.ofNat 32 (memRead b (4 + 4 * j.val) 4)
  x := Vector.ofFn fun j => BitVec.ofNat 8 (memRead b (36 + j.val) 1)
  len := BitVec.ofNat 64 (memRead b 100 8)

/-- UNMARSHAL's outcome: the tag is tested first, then the length, and nothing else is checked (43_codec.md R71,
60_exceptions.md R94). A payload of fewer than four bytes does not match the tag. -/
def unmarshal (b : List Byte) : Except Status Accumulator :=
  if b.take 4 ≠ tag then .error .invalidTag
  else if b.length ≠ blobSize then .error .invalidLength
  else .ok (Accumulator.ofBlob b)

/-- MARSHAL (R70): `value = 108` and the blob; no state is written. -/
def execMarshal (s : State) : Host.Outcome State Fault Refusal :=
  .next (s.respond .ok blobSize s.acc.marshal)

/-- What UNMARSHAL does with a whole payload: on success the context is loaded and the answer is `OK`, on an error nothing
changes and the answer is the error (43_codec.md R71, 60_exceptions.md R95). -/
def State.loadBlob (s : State) (b : List Byte) : State :=
  match unmarshal b with
  | .error e => s.raise e
  | .ok a => (s.withAcc a).respond .ok 0 []

/-- UNMARSHAL (R71): take the whole payload whatever the outcome (30_encoding.md R31) and load it. -/
def execUnmarshal (n : Nat) (s : State) : Host.Outcome State Fault Refusal :=
  .next (s.withPayload (.unmarshal n) fun b s' => s'.loadBlob b)

end Sys2Proof.Machine
end

