-- ==== Sys2Proof/Machine/Dispatch.lean ====
section
/-! DEFINITION. One arm per command, each one direct call of its meaning. -/

namespace Sys2Proof.Machine

/-- What each command does (30_encoding.md R33). -/
def exec (i : Instr) (s : State) : Host.Outcome State Fault Refusal :=
  match i with
  | .gfadd a b => Sys2Proof.Machine.execGfadd a b s
  | .gfmul a b => Sys2Proof.Machine.execGfmul a b s
  | .write n => Sys2Proof.Machine.execWrite n s
  | .sum => Sys2Proof.Machine.execSum s
  | .reset => Sys2Proof.Machine.execReset s
  | .size => Sys2Proof.Machine.execSize s
  | .blocksize => Sys2Proof.Machine.execBlocksize s
  | .marshal => Sys2Proof.Machine.execMarshal s
  | .unmarshal n => Sys2Proof.Machine.execUnmarshal n s

end Sys2Proof.Machine
end

