-- ==== Sys2Proof/Machine/Step.lean ====
section
/-! DEFINITION. One step of the block (30_encoding.md R37, 20_memory.md R28): a hardware reset if the host asserts it, else the
command in progress, else the next command word of the command stream. -/

namespace Sys2Proof.Machine

/-- The hardware reset comes before everything (70_reset_and_hazards.md R101). A command in progress goes on with the bytes that
have arrived. An idle decoder takes the next command word and the command runs; an illegal word is answered and dropped; with
fewer than four bytes on the stream the decoder stays idle (30_encoding.md R37, 93_implementation_defined.md U9). -/
def step (s : State) : Host.Outcome State Fault Refusal :=
  if s.resetLine then .next s.hardwareReset
  else match s.pending with
    | some i => exec i s
    | none =>
      match decode s.input with
      | .command i rest => exec i (s.withInput rest)
      | .illegal _ rest => .next (s.illegalWord rest)
      | .incomplete => .next s

/-- `s` with the instruction whose bits are `w` next on the command stream (`State.presentWord`). A program always comes from
outside the block (10_state.md R19); this stands for the host sending it (notes/assumptions/8.md). -/
def State.withFetchWord (s : State) (nbits w : Nat) : State :=
  s.presentWord nbits w

end Sys2Proof.Machine
end

