-- ==== Sys2Proof/Machine/Script.lean ====
section
/-! DEFINITION. Command scripts: the abstract syntax of the assembler of 30_encoding.md R39, with its pseudo-commands, and the
bytes of the command stream each stands for. The host's side of the interface; no definition of the machine uses it. -/

namespace Sys2Proof.Machine

/-- The lines of R39 that stand for one command or one word. -/
inductive Line where
  /-- `GFADD a, b`. -/
  | gfadd (a b : Byte)
  /-- `GFMUL a, b`. -/
  | gfmul (a b : Byte)
  /-- `WRITE`, with the bytes given. -/
  | write (d : List Byte)
  /-- `SUM`. -/
  | sum
  /-- `RESET`. -/
  | reset
  /-- `SIZE`. -/
  | size
  /-- `BLOCKSIZE`. -/
  | blocksize
  /-- `MARSHAL`. -/
  | marshal
  /-- `UNMARSHAL`, with the bytes given. -/
  | unmarshal (b : List Byte)
  /-- `.word`, the word as given: writes an illegal word. -/
  | word (w : Word)
  deriving DecidableEq, Repr

/-- A script: lines, pseudo-commands and `REPEAT` (R39). -/
inductive Script where
  /-- One line. -/
  | line (l : Line)
  /-- One script and then another. -/
  | andThen (p q : Script)
  /-- `NEW`: a fresh instance. -/
  | new
  /-- `HASH data`: the digest of `data` in one go. -/
  | hash (d : List Byte)
  /-- `SAVE`: a snapshot. -/
  | save
  /-- `RESTORE blob`: resume from a snapshot. -/
  | restore (b : List Byte)
  /-- `REPEAT k`: the body written `k` times. -/
  | replicate (k : Nat) (body : Script)
  deriving DecidableEq, Repr

/-- The bytes of a line: the word, then its payload (R39). -/
def Line.bytes : Line → List Byte
  | .gfadd a b => encode (.gfadd a b)
  | .gfmul a b => encode (.gfmul a b)
  | .write d => encode (.write d.length) ++ d
  | .sum => encode .sum
  | .reset => encode .reset
  | .size => encode .size
  | .blocksize => encode .blocksize
  | .marshal => encode .marshal
  | .unmarshal b => encode (.unmarshal b.length) ++ b
  | .word w => beBytes 4 w.toNat

/-- The pieces `HASH` writes `d` in: one, or where `d` is longer than `LMAX` as many of at most `LMAX` bytes as it takes (R39). -/
def writePieces (d : List Byte) : List (List Byte) :=
  if d.length ≤ lmax then [d]
  else (List.range ((d.length + lmax - 1) / lmax)).map fun k => (d.drop (k * lmax)).take lmax

/-- The bytes of a script, pseudo-commands expanded (R39). -/
def Script.bytes : Script → List Byte
  | .line l => l.bytes
  | .andThen p q => p.bytes ++ q.bytes
  | .new => Line.bytes .reset
  | .hash d => Line.bytes .reset ++ (writePieces d).flatMap (fun p => Line.bytes (.write p)) ++ Line.bytes .sum
  | .save => Line.bytes .marshal
  | .restore b => Line.bytes (.unmarshal b)
  | .replicate k body => (List.replicate k body.bytes).flatten

end Sys2Proof.Machine
end

