-- ==== Sys2Proof/Safety.lean ====
section
/-! DEFINITION. The terms in which claims about the block are made: what the host can observe of a state, the decoder's
invariant, and the functions of 45_properties.md over whole byte streams. Nothing here is part of the machine; no definition of
the machine uses it. -/

namespace Sys2Proof.Machine

/-! ## What can be observed -/

/-- The logical state `(H, X[0..NX), LEN)`: all of a context that any response or later value depends on
(10_state.md R16, 70_reset_and_hazards.md R112). -/
def Accumulator.logical (a : Accumulator) : Vector Word 8 × List Byte × BitVec 64 :=
  (a.h, a.valid, a.len)

/-- Two machine states that differ at most in the tail of `X` (10_state.md R16). -/
def State.agree (s t : State) : Prop :=
  s.acc.logical = t.acc.logical ∧ s.input = t.input ∧ s.output = t.output ∧ s.pending = t.pending ∧
    s.resetLine = t.resetLine

/-- The decoder expects a command word and no hardware reset is asserted: the states in which the next step takes the next
command (70_reset_and_hazards.md R100, R102). -/
def State.idle (s : State) : Prop :=
  s.pending = none ∧ s.resetLine = false

/-- `k` steps of the block. -/
def run (k : Nat) (s : State) : Host.Outcome State Fault Refusal :=
  Host.Core.run Sys2Proof.core k s

/-! ## The block under a given configuration

`Config` is a parameter of the step function (00_scope.md R9); `exec` and `step` have the type the host fixes, and are these at
`Config.chip` (Laws/Run.lean). -/

/-- `exec` of a block built with configuration `c`. -/
def execUnder (c : Config) (i : Instr) (s : State) : Host.Outcome State Fault Refusal :=
  match i with
  | .gfadd a b => execGfadd a b s
  | .gfmul a b => .next (s.multiply c a b)
  | .write n => .next (s.writePayload c n)
  | .sum => .next (s.answerDigest c)
  | .reset => execReset s
  | .size => execSize s
  | .blocksize => execBlocksize s
  | .marshal => execMarshal s
  | .unmarshal n => execUnmarshal n s

/-- `step` of a block built with configuration `c`. -/
def stepUnder (c : Config) (s : State) : Host.Outcome State Fault Refusal :=
  if s.resetLine then .next s.hardwareReset
  else match s.pending with
    | some i => execUnder c i s
    | none =>
      match decode s.input with
      | .command i rest => execUnder c i (s.withInput rest)
      | .illegal _ rest => .next (s.illegalWord rest)
      | .incomplete => .next s

/-! ## The decoder's invariant -/

/-- A command in progress is a well-formed command of format L (30_encoding.md R31). The host's moves keep this
(Laws/Run.lean). -/
def State.pendingIsFormatL (s : State) : Bool :=
  s.pending.all fun i => i.wellFormed && i.format == .l

/-- A command in progress is a well-formed command of format L whose payload has not all arrived (30_encoding.md R31, R37): what
holds between a step and the host's next move. -/
def State.inv (s : State) : Bool :=
  s.pendingIsFormatL && s.pending.all fun i => decide (s.input.length < i.payloadLength)

/-! ## Commands as the host sends them -/

/-- A WRITE command with payload `d`: the word, then the payload (30_encoding.md R30, R31). -/
def writeCommand (d : List Byte) : List Byte := encode (.write d.length) ++ d

/-- An UNMARSHAL command with payload `b`. -/
def unmarshalCommand (b : List Byte) : List Byte := encode (.unmarshal b.length) ++ b

/-- The nine rows of the opcode table as mask and match over the command word (30_encoding.md R33). -/
def opcodeRows : List (Word × Word) :=
  [(0xFF0000FF, 0x01000000), (0xFF0000FF, 0x02000000), (0xFF000000, 0x10000000), (0xFFFFFFFF, 0x11000000),
   (0xFFFFFFFF, 0x12000000), (0xFFFFFFFF, 0x13000000), (0xFFFFFFFF, 0x14000000), (0xFFFFFFFF, 0x20000000),
   (0xFF000000, 0x21000000)]

/-- A payload UNMARSHAL rejects: the tag is wrong or the length is not 108 (43_codec.md R71). -/
def rejectedBlob (b : List Byte) : Prop := b.take 4 ≠ tag ∨ b.length ≠ blobSize

/-- The commands, as bytes, that write no state (45_properties.md R87): the six that only answer, a failed UNMARSHAL and an
illegal word. -/
inductive ReadsOnly : List Byte → Prop where
  /-- SUM, MARSHAL, SIZE, BLOCKSIZE, GFADD or GFMUL. -/
  | answer (i : Instr) (h : i = .sum ∨ i = .marshal ∨ i = .size ∨ i = .blocksize ∨ (∃ a b, i = .gfadd a b) ∨ ∃ a b, i = .gfmul a b) :
      ReadsOnly (encode i)
  /-- An UNMARSHAL that fails. -/
  | failedUnmarshal (b : List Byte) (h : rejectedBlob b) (len : b.length ≤ lmax) : ReadsOnly (unmarshalCommand b)
  /-- A word that matches no row of the opcode table. -/
  | illegal (w : Word) (h : ∀ r ∈ opcodeRows, w &&& r.1 ≠ r.2) : ReadsOnly (beBytes 4 w.toNat)

/-! ## Streams -/

/-- `run(d)`: the context reached from the fresh state by writing `d` (45_properties.md, notation). -/
def absorb (c : Config) (d : List Byte) : Accumulator := Accumulator.fresh.write c d

/-- `digest(d)`: the payload of a SUM in `run(d)`. -/
def digestOf (c : Config) (d : List Byte) : Vector Byte 32 := (absorb c d).digest c

/-- The complete 64-byte blocks at the head of `d`, in stream order; a rest of fewer than 64 bytes is left out. -/
def completeBlocks (d : List Byte) : List (Vector Byte 64) :=
  (List.range (d.length / 64)).map fun k => Vector.ofFn fun j => d.getD (64 * k + j.val) 0

/-- The exclusive or of a list of bytes. -/
def xorAll (bs : List Byte) : Byte := bs.foldl (fun r b => r ^^^ b) 0

/-- Lane `i` of the closed form of 41_compression.md R55 over the first `m` blocks of `d`, with `d` read as followed by zeros:
`COEF[i] (*) (d[0] (+) B_0[PERM[i]] (+) ... (+) B_{m-1}[PERM[i]])`. -/
def closedLane (c : Config) (d : List Byte) (m : Nat) (i : Fin 32) : Byte :=
  gfmul c.poly (d.getD 0 0 ^^^ xorAll ((List.range m).map fun k => d.getD (64 * k + (c.perm[i.val]).val) 0)) c.coef[i.val]

/-- The context is the one 45_properties.md R89 describes after the bytes `d` have been written since the last reset: the
counter is their number, the valid buffer bytes are the last `NX` of them, and `H` is the closed form over the complete
blocks. -/
def Accumulator.holds (c : Config) (d : List Byte) (a : Accumulator) : Prop :=
  d.length < 2 ^ 64 ∧ a.len = BitVec.ofNat 64 d.length ∧ a.valid = d.drop (64 * (d.length / 64)) ∧
    ∀ i : Fin 32, stateByte a.h i = closedLane c d (d.length / 64) i

/-- The linear combination of equal-length byte sequences, byte by byte: `e[j] = (c_1 (*) d_1[j]) (+) ... (+) (c_m (*) d_m[j])`
for `j` below `n` (45_properties.md R84). -/
def combine (poly : BitVec 9) (shards : List (Byte × List Byte)) (n : Nat) : List Byte :=
  (List.range n).map fun j => xorAll (shards.map fun kd => gfmul poly kd.1 (kd.2.getD j 0))

/-- The byte-by-byte sum of two vectors (41_compression.md R54). -/
def addBytes {n : Nat} (u v : Vector Byte n) : Vector Byte n := Vector.ofFn fun i => gfadd u[i] v[i]

/-- The byte-by-byte multiple of a vector (41_compression.md R54). -/
def scaleBytes {n : Nat} (poly : BitVec 9) (k : Byte) (v : Vector Byte n) : Vector Byte n := Vector.ofFn fun i => gfmul poly k v[i]

end Sys2Proof.Machine
end

