-- ==== Sys2Proof/Certificates/Slice0/Obligations.lean ====
section
/-! DEFINITION. The statements for the provers, each a `def Obligations.<Name> : Prop`. They come from the numbered rules of
spec/; a docstring names the rule. Where a statement rests on a clause that the spec marks as its own inference, or on an entry
of the assumption log, its docstring says so. A claim about the machine is a claim about `Config.chip`, of which nothing is
known but the constraints of 00_scope.md R4 and R5; a claim about a function of the configuration is made for every `Config`.
No claim gives a byte of the tail of `X` a value, not even after reset (10_state.md R16, 70_reset_and_hazards.md R100). -/

open Sys2Proof Sys2Proof.Machine

/-! ## Encoding -/

/-- Decode and encode agree (30_encoding.md R30, R33): the four bytes of a well-formed command's word, whatever follows them,
decode to that command, with every operand at every value. -/
def Obligations.DecodingTheEncodingGivesTheCommand : Prop :=
  ∀ (i : Instr) (rest : List Byte), i.wellFormed = true → decode (encode i ++ rest) = .command i rest

/-- No bit of a legal word is dropped and no two words mean the same command (30_encoding.md R30, R33). -/
def Obligations.EveryLegalWordIsTheEncodingOfItsCommand : Prop :=
  ∀ (w : Word) (i : Instr), decodeWord w = .ok i → i.wellFormed = true ∧ encodeWord i = w

/-- Which words are illegal, by the slices of the word that 30_encoding.md R35 (a), (b), (c) name. -/
def Obligations.IllegalWordsAreThoseOfTheThreeCases : Prop :=
  ∀ w : Word, (∃ why, decodeWord w = .error why) ↔
    (w >>> 24 ∉ ([0x01, 0x02, 0x10, 0x11, 0x12, 0x13, 0x14, 0x20, 0x21] : List Word) ∨
     (w >>> 24 ∈ ([0x11, 0x12, 0x13, 0x14, 0x20] : List Word) ∧ w &&& 0x00FFFFFF ≠ 0) ∨
     (w >>> 24 ∈ ([0x01, 0x02] : List Word) ∧ w &&& 0x000000FF ≠ 0))

/-- The opcode map as mask and match (30_encoding.md R33, last paragraph): a word is legal exactly when it matches a row, and
no word matches two rows. -/
def Obligations.LegalWordsMatchExactlyOneRowOfTheTable : Prop :=
  (∀ w : Word, (∃ i, decodeWord w = .ok i) ↔ ∃ r ∈ opcodeRows, w &&& r.1 = r.2) ∧
  ∀ (w : Word) (r r' : Word × Word), r ∈ opcodeRows → r' ∈ opcodeRows → w &&& r.1 = r.2 → w &&& r'.1 = r'.2 → r = r'

/-- A word of each row, written out from 30_encoding.md R30 and R33 (and the examples of R39, R41 and R42), decodes to its
command. -/
def Obligations.WordsWrittenFromTheSpecDecode : Prop :=
  decode [0x01, 0x57, 0x83, 0x00] = .command (.gfadd 0x57 0x83) [] ∧
  decode [0x02, 0x02, 0x80, 0x00] = .command (.gfmul 0x02 0x80) [] ∧
  decode [0x10, 0x00, 0x00, 0x03, 0x61, 0x62, 0x63] = .command (.write 3) [0x61, 0x62, 0x63] ∧
  decode [0x10, 0x01, 0x02, 0x03] = .command (.write 66051) [] ∧
  decode [0x11, 0x00, 0x00, 0x00] = .command .sum [] ∧
  decode [0x12, 0x00, 0x00, 0x00] = .command .reset [] ∧
  decode [0x13, 0x00, 0x00, 0x00] = .command .size [] ∧
  decode [0x14, 0x00, 0x00, 0x00] = .command .blocksize [] ∧
  decode [0x20, 0x00, 0x00, 0x00] = .command .marshal [] ∧
  decode [0x21, 0x00, 0x00, 0x6C] = .command (.unmarshal 108) []

/-! ## The step -/

/-- A step runs the decoded command (30_encoding.md R37): where the decoder is idle and reads command `i` at the head of the
command stream, the step is `exec i` on the state that has taken the four bytes of the word. -/
def Obligations.StepRunsTheDecodedCommand : Prop :=
  ∀ (s : State) (i : Instr) (rest : List Byte), s.idle →
    (decode s.input = .command i rest → step s = exec i { s with input := rest }) ∧
    (i.wellFormed = true → s.input = encode i ++ rest → step s = exec i { s with input := rest })

/-- IllegalCommand (60_exceptions.md R93, 30_encoding.md R35): a word that matches no row of the opcode table changes no state,
has only its four bytes consumed and is answered with status 3, value 0 and no payload. -/
def Obligations.IllegalWordIsAnsweredAndDropped : Prop :=
  ∀ (s : State) (b0 b1 b2 b3 : Byte) (rest : List Byte), s.idle → s.input = b0 :: b1 :: b2 :: b3 :: rest →
    (∀ r ∈ opcodeRows, (b0 ++ b1 ++ b2 ++ b3 : Word) &&& r.1 ≠ r.2) →
    step s = .next { s with input := rest, output := s.output ++ [3, 0, 0, 0] }

/-- With fewer than the four bytes of a word on the command stream an idle block waits: the step changes nothing. The model's
reading of R37 and of 93_implementation_defined.md U9 (assumption log 3). -/
def Obligations.IdleBlockWaitsForACommandWord : Prop :=
  ∀ s : State, s.idle → s.input.length < 4 → step s = .next s

/-- A format-L command whose payload has not all arrived waits (93_implementation_defined.md U9; the field `pending` that holds
it is the model's, assumption log 3): its word is taken, and nothing else changes. -/
def Obligations.IncompletePayloadWaits : Prop :=
  ∀ (n : Nat) (s : State), s.input.length < n →
    exec (.write n) s = .next { s with pending := some (.write n) } ∧
    exec (.unmarshal n) s = .next { s with pending := some (.unmarshal n) } ∧
    (s.resetLine = false → s.pending = some (.write n) ∨ s.pending = some (.unmarshal n) → step s = .next s)

/-- When a payload arrives makes no difference (30_encoding.md R31 with U9; assumption log 3): take the word of a command, then
send the missing bytes; the step after that is the step that would have been taken with all bytes there. -/
def Obligations.LatePayloadGivesTheSameStep : Prop :=
  ∀ (s : State) (i : Instr) (d e : List Byte), s.idle → i.wellFormed = true → d.length < i.payloadLength →
    s.input = encode i ++ d →
    ∃ t, step s = .next t ∧ t.pending = some i ∧ t.acc = s.acc ∧ t.output = s.output ∧ step (t.hostSend e) = step (s.hostSend e)

/-- Hardware reset wins over everything, a command in progress included: no response, and the state is the model's reset state
(70_reset_and_hazards.md R101). Two clauses are the model's (assumption log 4): the signal is a field of State that the next step
reads, and the command stream is empty afterwards, so that all bytes the block has not read are dropped; R100 and R101 say neither. -/
def Obligations.HardwareResetAbandonsTheCommand : Prop :=
  ∀ s : State, step s.hostReset = .next State.reset

/-- The state after hardware reset (70_reset_and_hazards.md R100). Of `X` it says that no byte is valid: all 64 are in the
unobservable tail, and R100 lets no claim depend on what they hold. -/
def Obligations.ResetStateIsTheFreshState : Prop :=
  (∀ j : Fin 8, State.reset.acc.h[j] = 0x00000000) ∧ (∀ i : Fin 32, stateByte State.reset.acc.h i = 0x00) ∧
  State.reset.acc.len = 0 ∧ State.reset.acc.nx = 0 ∧ State.reset.acc.isFresh = true ∧
  State.reset.acc.valid = [] ∧ State.reset.pending = none ∧ State.reset.output = []

/-- Nothing stops the block: every step answers a next state (60_exceptions.md R99). The absence of any fault is the model's
reading of R95 to R99 (assumption log 7). -/
def Obligations.EveryStepAnswersANextState : Prop :=
  ∀ s : State, ∃ t, step s = .next t

/-- The decoder's invariant holds after reset (70_reset_and_hazards.md R100: decoder idle). -/
def Obligations.DecoderInvariantHoldsAtReset : Prop :=
  State.reset.inv = true

/-- Every step gives a state with the decoder's invariant: a command in progress is a well-formed format-L command whose payload
has not all arrived (30_encoding.md R31, R37; assumption log 3). The premise is the part of the invariant that the host's moves
keep, that a command in progress is well formed and of format L: its payload may be complete by now, so that the step that
completes the command is covered. -/
def Obligations.EveryStepKeepsTheDecoderInvariant : Prop :=
  ∀ s t : State, s.pendingIsFormatL = true → step s = .next t → t.inv = true

/-- One response per command (30_encoding.md R31, R32; 60_exceptions.md R99): either the payload is not all there and the block
waits (93_implementation_defined.md U9), which in the model means that the command is held in the field `pending` and nothing else
changes (assumption log 3, DEDUCED from U9), or the command takes exactly its payload, ends, and appends one response: the word, `value` 0 and no payload on an error,
and a response payload of 32 bytes for SUM, of 108 for MARSHAL and none otherwise. Only UNMARSHAL can answer an error. -/
def Obligations.EveryCommandAnswersOneResponse : Prop :=
  ∀ (i : Instr) (s t : State), exec i s = .next t →
    (s.input.length < i.payloadLength ∧ t = { s with pending := some i }) ∨
    (i.payloadLength ≤ s.input.length ∧ t.input = s.input.drop i.payloadLength ∧ t.pending = none ∧
      t.resetLine = s.resetLine ∧
      ∃ (st : Status) (v0 v1 v2 : Byte) (p : List Byte), t.output = s.output ++ (st.code :: v0 :: v1 :: v2 :: p) ∧
        (st ≠ .ok → v0 = 0 ∧ v1 = 0 ∧ v2 = 0 ∧ p = [] ∧ t.acc = s.acc ∧ ∃ n, i = .unmarshal n) ∧
        (st = .ok → p.length = if i = .sum then 32 else if i = .marshal then 108 else 0))

/-- The complete list of state-writing commands (10_state.md R10, 90_conflicts.md C6): every other command leaves `H`, `X` and
`LEN` as they are. -/
def Obligations.OnlyWriteResetAndUnmarshalWriteTheContext : Prop :=
  ∀ (i : Instr) (s t : State), exec i s = .next t → t.acc ≠ s.acc →
    (∃ n, i = .write n) ∨ i = .reset ∨ ∃ n, i = .unmarshal n

/-- The tail of `X` is unobservable (10_state.md R16, marked there as derived): two states that differ at most in it step to
states that differ at most in it, with the same responses. -/
def Obligations.TailOfTheBufferIsUnobservable : Prop :=
  ∀ s s' : State, s.agree s' → ∃ t t', step s = .next t ∧ step s' = .next t' ∧ t.agree t'

/-! ## Field arithmetic -/

/-- GFADD (40_field_arithmetic.md R41): the answer is the exclusive or, and no state is read or written. -/
def Obligations.GfaddAnswersTheExclusiveOr : Prop :=
  ∀ (a b : Byte) (s : State),
    exec (.gfadd a b) s = .next { s with output := s.output ++ [0, 0, 0, a ^^^ b], pending := none }

/-- GFMUL (40_field_arithmetic.md R42): the answer is the remainder of the carry-less product by `POLY`, and no state is read or
written. -/
def Obligations.GfmulAnswersTheProductModuloPoly : Prop :=
  ∀ (a b : Byte) (s : State),
    exec (.gfmul a b) s = .next { s with
      output := s.output ++ [0, 0, 0, (polyRem (Config.chip.poly.setWidth 16) 8 7 (clmul a b)).setWidth 8], pending := none }

/-- The shift-and-add algorithm of R42 computes the function R42 defines, for every 9-bit value with bit 8 set, and has the
corner values R42 lists: the remainder `r` has degree at most 7 and differs from the product by a multiple of `POLY`. -/
def Obligations.ShiftAndAddIsTheRemainderOfTheProduct : Prop :=
  ∀ poly : BitVec 9, poly.getLsbD 8 = true →
    (∀ a b : Byte, (gfmul poly a b).setWidth 16 = polyRem (poly.setWidth 16) 8 7 (clmul a b) ∧
      ∃ q : Byte, q.getLsbD 7 = false ∧
        clmul a b = (gfmul poly a b).setWidth 16 ^^^ clmul q (poly.setWidth 8) ^^^ (q.setWidth 16 <<< 8)) ∧
    (∀ a : Byte, gfmul poly a 0 = 0 ∧ gfmul poly 0 a = 0 ∧ gfmul poly a 1 = a ∧ gfmul poly 1 a = a ∧
      gfmul poly a 2 = xtime poly a) ∧
    gfmul poly 0x80 0x02 = poly.setWidth 8

/-- The laws of the two operations (40_field_arithmetic.md R43). That they hold for every 9-bit `POLY` with bit 8 set is marked
there as derived. -/
def Obligations.FieldOperationsObeyTheirLaws : Prop :=
  ∀ (poly : BitVec 9) (a b c : Byte), poly.getLsbD 8 = true →
    gfadd a b = gfadd b a ∧ gfadd (gfadd a b) c = gfadd a (gfadd b c) ∧ gfadd a 0 = a ∧ gfadd a a = 0 ∧
    gfmul poly a b = gfmul poly b a ∧ gfmul poly (gfmul poly a b) c = gfmul poly a (gfmul poly b c) ∧
    gfmul poly a (gfadd b c) = gfadd (gfmul poly a b) (gfmul poly a c) ∧
    gfmul poly (gfadd a b) c = gfadd (gfmul poly a c) (gfmul poly b c)

/-- What irreducibility adds, for every configuration (40_field_arithmetic.md R44, marked there as general knowledge checked by
evaluation): unique inverses, no zero divisors, multiplication by a non-zero element a bijection. -/
def Obligations.NonzeroElementsHaveInverses : Prop :=
  ∀ (c : Config),
    (∀ a : Byte, a ≠ 0 → ∃ b, gfmul c.poly a b = 1 ∧ ∀ b', gfmul c.poly a b' = 1 → b' = b) ∧
    (∀ a b : Byte, gfmul c.poly a b = 0 → a = 0 ∨ b = 0) ∧
    ∀ k : Byte, k ≠ 0 → Function.Bijective fun a => gfmul c.poly a k

/-- The admissible values of `POLY` (00_scope.md R4): a 9-bit value passes the test exactly when bit 8 is set and it is no
carry-less product of two polynomials of degree 1 to 7, and exactly when it is one of the thirty R4 lists. The list is marked
there as derived; that the test is irreducibility is assumption log 9. -/
def Obligations.AdmissiblePolynomialsAreTheThirtyIrreducibleOnes : Prop :=
  ∀ p : BitVec 9,
    (isIrreducible p = true ↔
      p.getLsbD 8 = true ∧ ∀ a b : Byte, 2 ≤ a.toNat → 2 ≤ b.toNat → clmul a b ≠ p.setWidth 16) ∧
    (isIrreducible p = true ↔
      p ∈ ([0x11B, 0x11D, 0x12B, 0x12D, 0x139, 0x13F, 0x14D, 0x15F, 0x163, 0x165, 0x169, 0x171, 0x177, 0x17B, 0x187,
        0x18B, 0x18D, 0x19F, 0x1A3, 0x1A9, 0x1B1, 0x1BD, 0x1C3, 0x1CF, 0x1D7, 0x1DD, 0x1E7, 0x1F3, 0x1F5, 0x1F9] : List (BitVec 9)))

/-! ## Compression -/

/-- FOLD, SEED and PADBLOCK, lane by lane (41_compression.md R50, R51, R52). -/
def Obligations.FoldSeedAndPadblockAreGivenLaneByLane : Prop :=
  ∀ (c : Config) (h : Vector Byte 32) (p x : Vector Byte 64) (b : Byte) (nx : Nat),
    (∀ i : Fin 32, (fold c h p)[i] = h[i] ^^^ gfmul c.poly p[c.perm[i.val]] c.coef[i.val]) ∧
    (∀ i : Fin 32, (seed c b)[i] = gfmul c.poly b c.coef[i.val]) ∧
    ∀ j : Fin 64, (padblock x nx)[j] = if j.val < nx then x[j] else 0x00

/-- The corner cases of FOLD (41_compression.md R50, marked there as derived): a zero block changes nothing, a lane with a zero
coefficient never changes, folding the same block twice restores the state; and `SEED(0)` is zero (R51). -/
def Obligations.FoldingTwiceRestoresTheState : Prop :=
  ∀ (c : Config) (h : Vector Byte 32) (p : Vector Byte 64),
    fold c h (Vector.replicate 64 0) = h ∧ fold c (fold c h p) p = h ∧ seed c 0 = Vector.replicate 32 0 ∧
    ∀ i : Fin 32, c.coef[i.val] = 0 → (fold c h p)[i] = h[i]

/-- Linearity of the pipeline (41_compression.md R54, marked there as derived). -/
def Obligations.PipelineIsLinear : Prop :=
  ∀ (c : Config) (h h' : Vector Byte 32) (p p' : Vector Byte 64) (b b' k : Byte) (nx : Nat),
    fold c (addBytes h h') (addBytes p p') = addBytes (fold c h p) (fold c h' p') ∧
    fold c (scaleBytes c.poly k h) (scaleBytes c.poly k p) = scaleBytes c.poly k (fold c h p) ∧
    seed c (gfadd b b') = addBytes (seed c b) (seed c b') ∧
    seed c (gfmul c.poly k b) = scaleBytes c.poly k (seed c b) ∧
    padblock (addBytes p p') nx = addBytes (padblock p nx) (padblock p' nx) ∧
    padblock (scaleBytes c.poly k p) nx = scaleBytes c.poly k (padblock p nx)

/-- The byte view of `H` (10_state.md R11): `s[i]` is byte `i mod 4` of `H[i div 4]` counted from the most significant,
`H[j] = s[4j] ++ s[4j+1] ++ s[4j+2] ++ s[4j+3]`, and the view and the words are the same storage. -/
def Obligations.WordsAndByteViewAreTheSameStorage : Prop :=
  (∀ (h : Vector Word 8) (i : Fin 32), stateByte h i = (h[i.val / 4] >>> (24 - 8 * (i.val % 4))).setWidth 8) ∧
  (∀ (h : Vector Word 8) (j : Fin 8),
    h[j] = stateByte h ⟨4 * j.val, by omega⟩ ++ stateByte h ⟨4 * j.val + 1, by omega⟩ ++
      stateByte h ⟨4 * j.val + 2, by omega⟩ ++ stateByte h ⟨4 * j.val + 3, by omega⟩) ∧
  (∀ h : Vector Word 8, wordsOfBytes (bytesOfWords h) = h) ∧
  ∀ v : Vector Byte 32, bytesOfWords (wordsOfBytes v) = v

/-! ## The accumulator -/

/-- WRITE (42_accumulator.md R60), said by whole blocks (R65): from any state whose command stream starts with the `n` payload
bytes, it answers `n`, counts the bytes modulo 2^64, folds the complete blocks of the valid buffer bytes followed by the payload
in stream order into the state bytes, which are the seed of the first payload byte where a payload that is not empty finds
`LEN = 0`, and keeps the rest as the valid bytes. -/
def Obligations.WriteIngestsItsPayloadBlockByBlock : Prop :=
  ∀ (n : Nat) (s : State) (d rest : List Byte), d.length = n → s.input = d ++ rest →
    ∃ t, exec (.write n) s = .next t ∧
      t.input = rest ∧ t.pending = none ∧ t.resetLine = s.resetLine ∧
      t.output = s.output ++ [0, BitVec.ofNat 8 (n / 65536), BitVec.ofNat 8 (n / 256), BitVec.ofNat 8 n] ∧
      t.acc.len = s.acc.len + BitVec.ofNat 64 n ∧
      t.acc.valid = (s.acc.valid ++ d).drop (64 * ((s.acc.valid.length + n) / 64)) ∧
      t.acc.s = (completeBlocks (s.acc.valid ++ d)).foldl (fold Config.chip)
        (match d with
          | [] => s.acc.s
          | b :: _ => if s.acc.len = 0 then seed Config.chip b else s.acc.s)

/-- An empty WRITE changes nothing (42_accumulator.md R60 corner case (a)). -/
def Obligations.EmptyWriteChangesNothing : Prop :=
  ∀ s : State, exec (.write 0) s = .next { s with output := s.output ++ [0, 0, 0, 0], pending := none }

/-- SUM (42_accumulator.md R61): value 32 and the digest in index order, lane by lane: the state byte, with the zero-padded last
block folded in where the buffer is not empty. No state is written. -/
def Obligations.SumAnswersTheDigestAndWritesNoState : Prop :=
  ∀ s : State, exec .sum s = .next { s with
    output := s.output ++ ([0, 0, 0, 32] ++ (List.finRange 32).map fun i =>
      if s.acc.nx = 0 then stateByte s.acc.h i
      else stateByte s.acc.h i ^^^
        gfmul Config.chip.poly (if (Config.chip.perm[i.val]).val < s.acc.nx then s.acc.x[Config.chip.perm[i.val]] else 0)
          Config.chip.coef[i.val]),
    pending := none }

/-- RESET (42_accumulator.md R62, 70_reset_and_hazards.md R101): the logical state is that of hardware reset, `FRESH` is true,
the answer is 0, and nothing else of the machine changes. -/
def Obligations.ResetCommandRestoresTheFreshState : Prop :=
  ∀ s : State, ∃ t, exec .reset s = .next t ∧ t.acc.logical = (Vector.replicate 8 0, [], 0) ∧
    t.acc.logical = State.reset.acc.logical ∧ t.acc.nx = 0 ∧ t.acc.isFresh = true ∧
    t.input = s.input ∧ t.output = s.output ++ [0, 0, 0, 0] ∧ t.pending = none ∧ t.resetLine = s.resetLine

/-- SIZE and BLOCKSIZE (42_accumulator.md R63, R64; 45_properties.md R86): 32 and 64 in every state, no state read or written;
as meanings and as a step on the words R63 and R64 give. -/
def Obligations.SizeAndBlocksizeAreConstant : Prop :=
  (∀ s : State,
    exec .size s = .next { s with output := s.output ++ [0x00, 0x00, 0x00, 0x20], pending := none } ∧
    exec .blocksize s = .next { s with output := s.output ++ [0x00, 0x00, 0x00, 0x40], pending := none }) ∧
  ∀ (s : State) (rest : List Byte), s.idle →
    (s.input = 0x13 :: 0x00 :: 0x00 :: 0x00 :: rest →
      step s = .next { s with input := rest, output := s.output ++ [0x00, 0x00, 0x00, 0x20] }) ∧
    (s.input = 0x14 :: 0x00 :: 0x00 :: 0x00 :: rest →
      step s = .next { s with input := rest, output := s.output ++ [0x00, 0x00, 0x00, 0x40] })

/-- Chunk invariance (45_properties.md R80): writing consecutive pieces with successive WRITE commands, below the counter limit
of R104, leaves the logical state that writing the whole sequence leaves, and so the same digest; where the whole fits one
command, that command's logical state. -/
def Obligations.ChunkingDoesNotMatter : Prop :=
  ∀ (s : State) (pieces : List (List Byte)), s.idle → (∀ p ∈ pieces, p.length ≤ lmax) →
    s.acc.len.toNat + pieces.flatten.length < 2 ^ 64 → s.input = pieces.flatMap writeCommand →
    ∃ t, run pieces.length s = .next t ∧ t.input = [] ∧ t.idle ∧
      t.acc.logical = (s.acc.write Config.chip pieces.flatten).logical ∧
      t.acc.digest Config.chip = (s.acc.write Config.chip pieces.flatten).digest Config.chip ∧
      (pieces.flatten.length ≤ lmax → ∃ u, run 1 { s with input := writeCommand pieces.flatten } = .next u ∧
        u.acc.logical = t.acc.logical ∧ u.acc.digest Config.chip = t.acc.digest Config.chip)

/-- The closed form of the digest (41_compression.md R55, marked there as derived), for every configuration and every non-empty
input below the counter limit: the last block is read as followed by zeros. -/
def Obligations.DigestHasTheClosedForm : Prop :=
  ∀ (c : Config) (d : List Byte), d ≠ [] → d.length < 2 ^ 64 →
    ∀ i : Fin 32, (digestOf c d)[i] = closedLane c d ((d.length + 63) / 64) i

/-- The state invariant (45_properties.md R89): the fresh context is that of no bytes written; WRITE (below the counter limit of
R104), RESET and UNMARSHAL of a blob made by MARSHAL in such a state keep it, each with the bytes written since the last reset
that it leaves; SUM, MARSHAL, SIZE, BLOCKSIZE, GFADD and GFMUL, and besides R89's list a failed UNMARSHAL and an illegal word, keep
it with the same bytes. Excluded, as by R89: UNMARSHAL of an accepted blob that MARSHAL has not made in such a state, which may
load any context. -/
def Obligations.RunningStateIsTheClosedFormOfTheBytesWritten : Prop :=
  Accumulator.fresh.holds Config.chip [] ∧
  ∀ (d : List Byte) (s : State), s.acc.holds Config.chip d →
    (∀ (e rest : List Byte), s.input = e ++ rest → d.length + e.length < 2 ^ 64 →
      ∃ t, exec (.write e.length) s = .next t ∧ t.acc.holds Config.chip (d ++ e)) ∧
    (∃ t, exec .reset s = .next t ∧ t.acc.holds Config.chip []) ∧
    (∀ (a : Accumulator) (d' rest : List Byte), a.holds Config.chip d' → s.input = a.marshal ++ rest →
      ∃ t, exec (.unmarshal 108) s = .next t ∧ t.acc.holds Config.chip d') ∧
    (∀ i : Instr, i = .sum ∨ i = .marshal ∨ i = .size ∨ i = .blocksize ∨ (∃ a b, i = .gfadd a b) ∨ (∃ a b, i = .gfmul a b) →
      ∃ t, exec i s = .next t ∧ t.acc.holds Config.chip d) ∧
    (∀ b rest : List Byte, rejectedBlob b → s.input = b ++ rest →
      ∃ t, exec (.unmarshal b.length) s = .next t ∧ t.acc.holds Config.chip d) ∧
    ∀ (b0 b1 b2 b3 : Byte) (rest : List Byte), s.idle → s.input = b0 :: b1 :: b2 :: b3 :: rest →
      (∀ r ∈ opcodeRows, (b0 ++ b1 ++ b2 ++ b3 : Word) &&& r.1 ≠ r.2) →
      ∃ t, step s = .next t ∧ t.acc.holds Config.chip d

/-- Determinism and reset idempotence (45_properties.md R81, R83): from any state in which the next command is taken, RESET,
WRITE of `B` and SUM answer the digest that a block just reset answers for `B`. -/
def Obligations.HashingAfterResetIsHashingAfresh : Prop :=
  ∀ (s : State) (b : List Byte), s.idle → b.length ≤ lmax → s.input = encode .reset ++ writeCommand b ++ encode .sum →
    ∃ t u, run 3 s = .next t ∧
      run 2 { State.reset with input := writeCommand b ++ encode .sum } = .next u ∧
      t.output = s.output ++ [0, 0, 0, 0] ++ u.output ∧ t.acc.logical = u.acc.logical ∧
      u.output = [0, BitVec.ofNat 8 (b.length / 65536), BitVec.ofNat 8 (b.length / 256), BitVec.ofNat 8 b.length] ++
        ([0, 0, 0, 32] ++ (digestOf Config.chip b).toList) ∧
      u.acc.logical = (absorb Config.chip b).logical

/-- The one-shot digest (the pseudo-command HASH of 30_encoding.md R39, 45_properties.md R83), for data of any length below the
counter limit, split into several WRITEs where it is longer than `LMAX`: the last response is the digest of the data, whatever
the state was. R39 does not say where the data is cut; the model's script cuts it into pieces of `LMAX` bytes, the last one shorter
(`writePieces`, DESIGN CHOICE, assumption log 14), which fixes how many WRITEs, steps and acknowledgements there are. -/
def Obligations.HashScriptAnswersTheDigest : Prop :=
  ∀ (s : State) (d : List Byte), s.idle → d.length < 2 ^ 64 → s.input = (Script.hash d).bytes →
    ∃ (t : State) (acks : List Byte), run ((writePieces d).length + 2) s = .next t ∧
      acks.length = 4 * ((writePieces d).length + 1) ∧
      t.output = s.output ++ acks ++ ([0, 0, 0, 32] ++ (digestOf Config.chip d).toList) ∧
      t.acc.logical = (absorb Config.chip d).logical ∧ t.input = [] ∧ t.idle

/-- A command that writes no state does not disturb the stream (45_properties.md R87): between WRITE `a` and WRITE `b`, any
command of `ReadsOnly` leaves the second digest that of `a ++ b` and the end state that of writing `a ++ b`; where it is SUM,
its answer is the digest of `a`. -/
def Obligations.SumDoesNotDisturbTheStream : Prop :=
  ∀ (a b m : List Byte), a.length ≤ lmax → b.length ≤ lmax → ReadsOnly m →
    ∃ (t : State) (answer : List Byte),
      run 4 { State.reset with input := writeCommand a ++ m ++ writeCommand b ++ encode .sum } = .next t ∧
      t.output = [0, BitVec.ofNat 8 (a.length / 65536), BitVec.ofNat 8 (a.length / 256), BitVec.ofNat 8 a.length] ++ answer ++
        [0, BitVec.ofNat 8 (b.length / 65536), BitVec.ofNat 8 (b.length / 256), BitVec.ofNat 8 b.length] ++
        ([0, 0, 0, 32] ++ (digestOf Config.chip (a ++ b)).toList) ∧
      (m = encode .sum → answer = [0, 0, 0, 32] ++ (digestOf Config.chip a).toList) ∧
      t.acc.logical = (absorb Config.chip (a ++ b)).logical ∧ t.input = [] ∧ t.idle

/-- The homomorphism (45_properties.md R84): the digest of a linear combination of sequences of one common length is the same
combination of their digests, the digests taken as sequences of 32 bytes. That it holds for lengths that are not block-aligned is
marked there as derived. -/
def Obligations.DigestIsAHomomorphism : Prop :=
  ∀ (c : Config) (len : Nat) (shards : List (Byte × List Byte)), len < 2 ^ 64 → (∀ kd ∈ shards, kd.2.length = len) →
    (digestOf c (combine c.poly shards len)).toList =
      combine c.poly (shards.map fun kd => (kd.1, (digestOf c kd.2).toList)) 32

/-- Trailing zeros do not change the digest, and an all-zero input has the zero digest (45_properties.md R88 (a), (d); (a) is
marked there as derived). -/
def Obligations.TrailingZerosDoNotChangeTheDigest : Prop :=
  ∀ (c : Config) (d : List Byte) (k : Nat), d.length + k < 2 ^ 64 →
    digestOf c (d ++ List.replicate k 0) = digestOf c d ∧ digestOf c (List.replicate k 0) = Vector.replicate 32 0

/-- Bytes at block offsets outside `PERM[0..31]` do not affect the digest, but for the first byte of the stream
(45_properties.md R88 (b), 41_compression.md R53, marked there as derived). -/
def Obligations.UnreadOffsetsDoNotAffectTheDigest : Prop :=
  ∀ (c : Config) (d e : List Byte), d.length < 2 ^ 64 → d.length = e.length → d.head? = e.head? →
    (∀ q, q < d.length → (∃ i : Fin 32, (c.perm[i.val]).val = q % 64) → d[q]? = e[q]?) →
    digestOf c d = digestOf c e

/-- Swapping two whole blocks that begin with the same byte or of which neither is the first, and adding one byte value at one
offset of two blocks (not at the first byte of the stream), leave the digest as it is (45_properties.md R88 (c), marked there as
derived). -/
def Obligations.BlockSwapsDoNotChangeTheDigest : Prop :=
  ∀ (c : Config),
    (∀ (p x q y r : List Byte), 64 ∣ p.length → x.length = 64 → 64 ∣ q.length → y.length = 64 →
      (p ++ x ++ q ++ y ++ r).length < 2 ^ 64 → p ≠ [] ∨ x.head? = y.head? →
      digestOf c (p ++ x ++ q ++ y ++ r) = digestOf c (p ++ y ++ q ++ x ++ r)) ∧
    ∀ (d : List Byte) (m n : Nat) (v : Byte), d.length < 2 ^ 64 → 0 < m → m < n → n < d.length → m % 64 = n % 64 →
      digestOf c ((d.modify m (· ^^^ v)).modify n (· ^^^ v)) = digestOf c d

/-- A context whose counter is 0 and whose state is not (43_codec.md R72 (c), 42_accumulator.md R60 corner case (c)): SUM answers
the state bytes, and the next non-empty payload gives what it gives from the fresh state. -/
def Obligations.CounterZeroContextForgetsItsStateAtTheNextWrite : Prop :=
  ∀ (c : Config) (a : Accumulator), a.len = 0 →
    a.digest c = a.s ∧ ∀ d : List Byte, d ≠ [] → (a.write c d).logical = (absorb c d).logical

/-! ## The codec -/

/-- MARSHAL (43_codec.md R70, layout 20_memory.md R23): value 108 and the 108 bytes of the blob, and no state written: the tag,
the state bytes, the valid buffer bytes with zeros after them, the counter most significant byte first. -/
def Obligations.MarshalAnswersTheBlob : Prop :=
  ∀ s : State, ∃ blob : List Byte,
    exec .marshal s = .next { s with output := s.output ++ ([0, 0, 0, 108] ++ blob), pending := none } ∧
    blob.length = 108 ∧ blob.take 4 = [0x68, 0x6F, 0x6D, 0x6F] ∧
    (∀ i : Fin 32, blob[4 + i.val]? = some (stateByte s.acc.h i)) ∧
    (∀ j : Fin 64, blob[36 + j.val]? = some (if j.val < s.acc.nx then s.acc.x[j] else 0x00)) ∧
    ∀ k : Fin 8, blob[100 + k.val]? = some ((s.acc.len >>> (56 - 8 * k.val)).setWidth 8)

/-- UNMARSHAL of any 108 bytes that begin with the tag (43_codec.md R71): the context is loaded, with `NX` derived from the
loaded counter, and the answer is status 0, value 0. -/
def Obligations.UnmarshalLoadsTheContext : Prop :=
  ∀ (s : State) (b rest : List Byte), b.length = 108 → b.take 4 = [0x68, 0x6F, 0x6D, 0x6F] → s.input = b ++ rest →
    ∃ t, exec (.unmarshal 108) s = .next t ∧
      t.input = rest ∧ t.output = s.output ++ [0, 0, 0, 0] ∧ t.pending = none ∧ t.resetLine = s.resetLine ∧
      (∀ i : Fin 32, some (stateByte t.acc.h i) = b[4 + i.val]?) ∧
      (∀ k : Fin 8, some ((t.acc.len >>> (56 - 8 * k.val)).setWidth 8) = b[100 + k.val]?) ∧
      t.acc.nx = t.acc.len.toNat % 64 ∧ t.acc.valid = (b.drop 36).take t.acc.nx

/-- Format rejection (45_properties.md R85, 43_codec.md R71, 60_exceptions.md R91, R92): a payload of fewer than four bytes or
with a wrong tag is `InvalidTag` whatever its length; one with the right tag and a length other than 108 is `InvalidLength`. The
whole payload is consumed and nothing else changes. -/
def Obligations.UnmarshalRejectsWrongTagThenWrongLength : Prop :=
  ∀ (s : State) (b rest : List Byte), s.input = b ++ rest →
    (b.length < 4 ∨ b.take 4 ≠ [0x68, 0x6F, 0x6D, 0x6F] →
      exec (.unmarshal b.length) s = .next { s with input := rest, output := s.output ++ [1, 0, 0, 0], pending := none }) ∧
    (b.take 4 = [0x68, 0x6F, 0x6D, 0x6F] → b.length ≠ 108 →
      exec (.unmarshal b.length) s = .next { s with input := rest, output := s.output ++ [2, 0, 0, 0], pending := none })

/-- The round trip (45_properties.md R82, 43_codec.md R72 (a)): the blob MARSHAL answers in `s`, given to UNMARSHAL in any other
state, is accepted and leaves the logical state of `s`; and whatever bytes follow, the two blocks give the same responses. -/
def Obligations.MarshalledStateIsRestored : Prop :=
  ∀ (s s' : State) (rest : List Byte), s'.input = s.acc.marshal ++ rest →
    (∃ u, exec .marshal s = .next u ∧ u.output = s.output ++ ([0, 0, 0, 108] ++ s.acc.marshal)) ∧
    ∃ t, exec (.unmarshal 108) s' = .next t ∧ t.output = s'.output ++ [0, 0, 0, 0] ∧ t.acc.logical = s.acc.logical ∧
      ∀ (k : Nat) (bs : List Byte), ∃ v v',
        run k { State.reset with acc := s.acc, input := bs } = .next v ∧
        run k { State.reset with acc := t.acc, input := bs } = .next v' ∧
        v.output = v'.output ∧ v.acc.logical = v'.acc.logical

/-- MARSHAL after UNMARSHAL of any accepted blob answers that blob with the buffer bytes from the derived `NX` on replaced by
zeros (43_codec.md R72 (b), marked there as derived). -/
def Obligations.MarshalCanonicalisesTheLoadedBlob : Prop :=
  ∀ (s : State) (b rest : List Byte), b.length = 108 → b.take 4 = tag → s.input = b ++ rest →
    ∃ t u, exec (.unmarshal 108) s = .next t ∧ exec .marshal t = .next u ∧
      u.output = t.output ++ ([0, 0, 0, 108] ++
        (b.take (36 + t.acc.nx) ++ List.replicate (64 - t.acc.nx) 0 ++ b.drop 100))
end

