-- ==== Sys2Proof/Laws/State.lean ====
section
/-! SUPPORT. One lemma per field per update of the state, each true by unfolding, so that no proof unfolds a record update. -/

namespace Sys2Proof.Machine

/-! ## The shared operations on State -/

@[simp] theorem State.respond_acc (s : State) (st : Status) (v : Nat) (p : List Byte) : (s.respond st v p).acc = s.acc := rfl
@[simp] theorem State.respond_input (s : State) (st : Status) (v : Nat) (p : List Byte) : (s.respond st v p).input = s.input := rfl
@[simp] theorem State.respond_output (s : State) (st : Status) (v : Nat) (p : List Byte) :
    (s.respond st v p).output = s.output ++ (responseWord st v ++ p) := rfl
@[simp] theorem State.respond_pending (s : State) (st : Status) (v : Nat) (p : List Byte) : (s.respond st v p).pending = none := rfl
@[simp] theorem State.respond_resetLine (s : State) (st : Status) (v : Nat) (p : List Byte) :
    (s.respond st v p).resetLine = s.resetLine := rfl

@[simp] theorem State.raise_acc (s : State) (e : Status) : (s.raise e).acc = s.acc := rfl
@[simp] theorem State.raise_input (s : State) (e : Status) : (s.raise e).input = s.input := rfl
@[simp] theorem State.raise_output (s : State) (e : Status) : (s.raise e).output = s.output ++ [e.code, 0, 0, 0] := rfl
@[simp] theorem State.raise_pending (s : State) (e : Status) : (s.raise e).pending = none := rfl
@[simp] theorem State.raise_resetLine (s : State) (e : Status) : (s.raise e).resetLine = s.resetLine := rfl

@[simp] theorem State.await_acc (s : State) (i : Instr) : (s.await i).acc = s.acc := rfl
@[simp] theorem State.await_input (s : State) (i : Instr) : (s.await i).input = s.input := rfl
@[simp] theorem State.await_output (s : State) (i : Instr) : (s.await i).output = s.output := rfl
@[simp] theorem State.await_pending (s : State) (i : Instr) : (s.await i).pending = some i := rfl
@[simp] theorem State.await_resetLine (s : State) (i : Instr) : (s.await i).resetLine = s.resetLine := rfl

@[simp] theorem State.withAcc_acc (s : State) (a : Accumulator) : (s.withAcc a).acc = a := rfl
@[simp] theorem State.withAcc_input (s : State) (a : Accumulator) : (s.withAcc a).input = s.input := rfl
@[simp] theorem State.withAcc_output (s : State) (a : Accumulator) : (s.withAcc a).output = s.output := rfl
@[simp] theorem State.withAcc_pending (s : State) (a : Accumulator) : (s.withAcc a).pending = s.pending := rfl
@[simp] theorem State.withAcc_resetLine (s : State) (a : Accumulator) : (s.withAcc a).resetLine = s.resetLine := rfl

@[simp] theorem State.withInput_acc (s : State) (r : List Byte) : (s.withInput r).acc = s.acc := rfl
@[simp] theorem State.withInput_input (s : State) (r : List Byte) : (s.withInput r).input = r := rfl
@[simp] theorem State.withInput_output (s : State) (r : List Byte) : (s.withInput r).output = s.output := rfl
@[simp] theorem State.withInput_pending (s : State) (r : List Byte) : (s.withInput r).pending = s.pending := rfl
@[simp] theorem State.withInput_resetLine (s : State) (r : List Byte) : (s.withInput r).resetLine = s.resetLine := rfl

@[simp] theorem State.illegalWord_acc (s : State) (r : List Byte) : (s.illegalWord r).acc = s.acc := rfl
@[simp] theorem State.illegalWord_input (s : State) (r : List Byte) : (s.illegalWord r).input = r := rfl
@[simp] theorem State.illegalWord_output (s : State) (r : List Byte) : (s.illegalWord r).output = s.output ++ [3, 0, 0, 0] := rfl
@[simp] theorem State.illegalWord_pending (s : State) (r : List Byte) : (s.illegalWord r).pending = none := rfl
@[simp] theorem State.illegalWord_resetLine (s : State) (r : List Byte) : (s.illegalWord r).resetLine = s.resetLine := rfl

@[simp] theorem State.hostSend_acc (s : State) (bs : List Byte) : (s.hostSend bs).acc = s.acc := rfl
@[simp] theorem State.hostSend_input (s : State) (bs : List Byte) : (s.hostSend bs).input = s.input ++ bs := rfl
@[simp] theorem State.hostSend_output (s : State) (bs : List Byte) : (s.hostSend bs).output = s.output := rfl
@[simp] theorem State.hostSend_pending (s : State) (bs : List Byte) : (s.hostSend bs).pending = s.pending := rfl
@[simp] theorem State.hostSend_resetLine (s : State) (bs : List Byte) : (s.hostSend bs).resetLine = s.resetLine := rfl

@[simp] theorem State.hostReceive_bytes (s : State) (n : Nat) : (s.hostReceive n).1 = s.output.take n := rfl
@[simp] theorem State.hostReceive_acc (s : State) (n : Nat) : (s.hostReceive n).2.acc = s.acc := rfl
@[simp] theorem State.hostReceive_input (s : State) (n : Nat) : (s.hostReceive n).2.input = s.input := rfl
@[simp] theorem State.hostReceive_output (s : State) (n : Nat) : (s.hostReceive n).2.output = s.output.drop n := rfl
@[simp] theorem State.hostReceive_pending (s : State) (n : Nat) : (s.hostReceive n).2.pending = s.pending := rfl
@[simp] theorem State.hostReceive_resetLine (s : State) (n : Nat) : (s.hostReceive n).2.resetLine = s.resetLine := rfl

@[simp] theorem State.hostReset_acc (s : State) : s.hostReset.acc = s.acc := rfl
@[simp] theorem State.hostReset_input (s : State) : s.hostReset.input = s.input := rfl
@[simp] theorem State.hostReset_output (s : State) : s.hostReset.output = s.output := rfl
@[simp] theorem State.hostReset_pending (s : State) : s.hostReset.pending = s.pending := rfl
@[simp] theorem State.hostReset_resetLine (s : State) : s.hostReset.resetLine = true := rfl

@[simp] theorem State.withFetchWord_acc (s : State) (nbits w : Nat) : (s.withFetchWord nbits w).acc = s.acc := rfl
@[simp] theorem State.withFetchWord_input (s : State) (nbits w : Nat) :
    (s.withFetchWord nbits w).input = tableBytes nbits w ++ s.input := rfl
@[simp] theorem State.withFetchWord_output (s : State) (nbits w : Nat) : (s.withFetchWord nbits w).output = s.output := rfl
@[simp] theorem State.withFetchWord_pending (s : State) (nbits w : Nat) : (s.withFetchWord nbits w).pending = none := rfl
@[simp] theorem State.withFetchWord_resetLine (s : State) (nbits w : Nat) : (s.withFetchWord nbits w).resetLine = false := rfl

/-! ## Updates of the context -/

@[simp] theorem Accumulator.setS_h (a : Accumulator) (v : Vector Byte 32) : (a.setS v).h = wordsOfBytes v := rfl
@[simp] theorem Accumulator.setS_x (a : Accumulator) (v : Vector Byte 32) : (a.setS v).x = a.x := rfl
@[simp] theorem Accumulator.setS_len (a : Accumulator) (v : Vector Byte 32) : (a.setS v).len = a.len := rfl
@[simp] theorem Accumulator.setS_nx (a : Accumulator) (v : Vector Byte 32) : (a.setS v).nx = a.nx := rfl
@[simp] theorem Accumulator.setS_valid (a : Accumulator) (v : Vector Byte 32) : (a.setS v).valid = a.valid := rfl

@[simp] theorem Accumulator.clear_h (a : Accumulator) : a.clear.h = Vector.replicate 8 0 := rfl
@[simp] theorem Accumulator.clear_x (a : Accumulator) : a.clear.x = a.x := rfl
@[simp] theorem Accumulator.clear_len (a : Accumulator) : a.clear.len = 0 := rfl

@[simp] theorem Accumulator.fresh_h : Accumulator.fresh.h = Vector.replicate 8 0 := rfl
@[simp] theorem Accumulator.fresh_x : Accumulator.fresh.x = Vector.replicate 64 0 := rfl
@[simp] theorem Accumulator.fresh_len : Accumulator.fresh.len = 0 := rfl

@[simp] theorem State.reset_acc : State.reset.acc = Accumulator.fresh := rfl
@[simp] theorem State.reset_input : State.reset.input = [] := rfl
@[simp] theorem State.reset_output : State.reset.output = [] := rfl
@[simp] theorem State.reset_pending : State.reset.pending = none := rfl
@[simp] theorem State.reset_resetLine : State.reset.resetLine = false := rfl

end Sys2Proof.Machine
end

