-- ==== Sys2Proof/Laws/Ops.lean ====
section
/-! SUPPORT. For each shared operation, one lemma that says once what it does. -/

namespace Sys2Proof

/-! ## Words put together from bytes

The width of `a ++ b` is a sum, and `Word` says 32, so the library's lemmas on `++` do not fire on a word by themselves; these do. -/

/-- Bit `k` of the word of four bytes. -/
theorem getLsbD_wordOfBytes (b0 b1 b2 b3 : Byte) (k : Nat) :
    (wordOfBytes b0 b1 b2 b3).getLsbD k =
      if k < 8 then b3.getLsbD k else if k < 16 then b2.getLsbD (k - 8)
      else if k < 24 then b1.getLsbD (k - 16) else b0.getLsbD (k - 24) := by
  show BitVec.getLsbD (w := 8 + 8 + 8 + 8) (b0 ++ b1 ++ b2 ++ b3) k = _
  simp only [BitVec.getLsbD_append, Nat.sub_sub]
  split_ifs <;> first | rfl | omega

/-- Bit `k` of a format-Z word. -/
theorem getLsbD_encodeZ (op : Byte) (k : Nat) :
    (encodeZ op).getLsbD k = if k < 24 then false else op.getLsbD (k - 24) := by
  show BitVec.getLsbD (w := 8 + 24) (op ++ (0 : BitVec 24)) k = _
  rw [BitVec.getLsbD_append]
  split <;> simp

/-- A format-F word is the word of its four bytes. -/
theorem encodeF_eq (op a b : Byte) : encodeF op a b = wordOfBytes op a b 0 := rfl

/-- Bit `k` of a format-L word. -/
theorem getLsbD_encodeL (op : Byte) (n k : Nat) :
    (encodeL op n).getLsbD k = if k < 24 then n.testBit k else op.getLsbD (k - 24) := by
  show BitVec.getLsbD (w := 8 + 24) (op ++ BitVec.ofNat 24 n) k = _
  simp only [BitVec.getLsbD_append, BitVec.getLsbD_ofNat]
  split <;> simp_all

/-! ## Bytes -/

@[simp] theorem beBytes_length (k v : Nat) : (beBytes k v).length = k := by
  induction k with
  | zero => rfl
  | succ k ih => simp [beBytes, ih]

theorem beNat_append (as bs : List Byte) : beNat (as ++ bs) = beNat as * 256 ^ bs.length + beNat bs := by
  have go : ∀ (bs : List Byte) (v : Nat),
      bs.foldl (fun v b => v * 256 + b.toNat) v = v * 256 ^ bs.length + bs.foldl (fun v b => v * 256 + b.toNat) 0 := by
    intro bs
    induction bs with
    | nil => simp
    | cons b bs ih =>
      intro v
      rw [List.foldl_cons, ih, List.foldl_cons, ih (0 * 256 + b.toNat), List.length_cons, pow_succ]
      ring
  simp only [beNat, List.foldl_append]
  exact go bs _

/-- Reading back a big-endian image gives the value modulo the width. -/
theorem beNat_beBytes (k v : Nat) : beNat (beBytes k v) = v % 256 ^ k := by
  induction k with
  | zero => simp [beBytes, beNat, Nat.mod_one]
  | succ k ih =>
    have h : beBytes (k + 1) v = [BitVec.ofNat 8 (v >>> (8 * k))] ++ beBytes k v := rfl
    have p : (256 : Nat) ^ k = 2 ^ (8 * k) := by rw [pow_mul]; norm_num
    rw [h, beNat_append, ih, beBytes_length, pow_succ, Nat.mod_mul]
    simp only [beNat, List.foldl_cons, List.foldl_nil, BitVec.toNat_ofNat, Nat.shiftRight_eq_div_pow, p]
    rw [zero_mul, zero_add, Nat.mul_comm, Nat.add_comm]

/-- Where the stream starts with `n` bytes, `splitBytes` takes exactly them. -/
theorem splitBytes_append (d rest : List Byte) : splitBytes (d ++ rest) d.length = some (d, rest) := by
  simp [splitBytes]

/-- What `splitBytes` can answer. -/
theorem splitBytes_eq_some_iff (bs d rest : List Byte) (n : Nat) :
    splitBytes bs n = some (d, rest) ↔ bs = d ++ rest ∧ d.length = n := by
  constructor
  · intro h
    unfold splitBytes at h
    split at h
    · cases h
    · cases h
      exact ⟨(List.take_append_drop n bs).symm, by simp; omega⟩
  · rintro ⟨rfl, rfl⟩
    exact splitBytes_append d rest

theorem splitBytes_eq_none_iff (bs : List Byte) (n : Nat) : splitBytes bs n = none ↔ bs.length < n := by
  unfold splitBytes
  split <;> simp_all

end Sys2Proof

namespace Sys2Proof.Machine

/-! ## The payload -/

/-- What `takePayload` can answer: the payload and the state without it, nothing else changed. -/
theorem takePayload_eq_some_iff (s s' : State) (n : Nat) (d : List Byte) :
    s.takePayload n = some (d, s') ↔ ∃ rest, s.input = d ++ rest ∧ d.length = n ∧ s' = s.withInput rest := by
  unfold State.takePayload
  constructor
  · intro h
    split at h
    · cases h
    · next e =>
      cases h
      obtain ⟨h1, h2⟩ := (splitBytes_eq_some_iff _ _ _ _).mp e
      exact ⟨_, h1, h2, rfl⟩
  · rintro ⟨rest, h1, h2, rfl⟩
    rw [(splitBytes_eq_some_iff _ _ _ _).mpr ⟨h1, h2⟩]
    rfl

theorem takePayload_eq_none_iff (s : State) (n : Nat) : s.takePayload n = none ↔ s.input.length < n := by
  unfold State.takePayload
  constructor
  · intro h
    split at h
    · next e => exact (splitBytes_eq_none_iff _ _).mp e
    · cases h
  · intro h
    rw [(splitBytes_eq_none_iff _ _).mpr h]

/-- What `withPayload` can be: waiting for a payload that has not all arrived, or `k` of the payload at the head of the command
stream. -/
theorem withPayload_cases (s : State) (i : Instr) (k : List Byte → State → State) :
    (s.input.length < i.payloadLength ∧ s.withPayload i k = s.await i) ∨
    ∃ d rest, s.input = d ++ rest ∧ d.length = i.payloadLength ∧ s.withPayload i k = k d (s.withInput rest) := by
  unfold State.withPayload
  split
  · next h => exact .inl ⟨(takePayload_eq_none_iff _ _).mp h, rfl⟩
  · next h =>
    obtain ⟨rest, h1, h2, rfl⟩ := (takePayload_eq_some_iff _ _ _ _).mp h
    exact .inr ⟨_, rest, h1, h2, rfl⟩

/-- `withPayload` where the payload heads the command stream. -/
theorem withPayload_of_append {s : State} {i : Instr} {d rest : List Byte} (k : List Byte → State → State)
    (h : s.input = d ++ rest) (len : d.length = i.payloadLength) : s.withPayload i k = k d (s.withInput rest) := by
  unfold State.withPayload
  rw [(takePayload_eq_some_iff _ _ _ _).mpr ⟨rest, h, len, rfl⟩]

/-- `withPayload` where the payload has not all arrived. -/
theorem withPayload_of_short {s : State} {i : Instr} (k : List Byte → State → State) (h : s.input.length < i.payloadLength) :
    s.withPayload i k = s.await i := by
  unfold State.withPayload
  rw [(takePayload_eq_none_iff _ _).mpr h]

/-! ## Lanes -/

@[simp] theorem fold_getElem (c : Config) (h : Vector Byte 32) (p : Vector Byte 64) (i : Nat) (hi : i < 32) :
    (fold c h p)[i] = gfadd h[i] (gfmul c.poly p[(c.perm[i]).val] c.coef[i]) := by
  simp [fold]

@[simp] theorem seed_getElem (c : Config) (b : Byte) (i : Nat) (hi : i < 32) :
    (seed c b)[i] = gfmul c.poly b c.coef[i] := by
  simp [seed]

@[simp] theorem padblock_getElem (x : Vector Byte 64) (nx j : Nat) (hj : j < 64) :
    (padblock x nx)[j] = if j < nx then x[j] else 0 := by
  simp [padblock]

@[simp] theorem bytesOfWords_getElem (h : Vector Word 8) (i : Nat) (hi : i < 32) :
    (bytesOfWords h)[i] = stateByte h ⟨i, hi⟩ := by
  simp [bytesOfWords]

@[simp] theorem wordsOfBytes_getElem (v : Vector Byte 32) (j : Nat) (hj : j < 8) :
    (wordsOfBytes v)[j] = v[4 * j] ++ v[4 * j + 1] ++ v[4 * j + 2] ++ v[4 * j + 3] := by
  simp [wordsOfBytes]

/-! ## The accumulator -/

@[simp] theorem Accumulator.nx_lt (a : Accumulator) : a.nx < 64 := Nat.mod_lt _ (by decide)

@[simp] theorem Accumulator.valid_length (a : Accumulator) : a.valid.length = a.nx := by
  simp [Accumulator.valid, Nat.le_of_lt a.nx_lt]

/-- What one turn of WRITE's loop does to the counter and the buffer. -/
theorem Accumulator.ingest_len (c : Config) (a : Accumulator) (b : Byte) : (a.ingest c b).len = a.len + 1 := by
  unfold Accumulator.ingest
  simp only
  split <;> rfl

theorem Accumulator.ingest_x (c : Config) (a : Accumulator) (b : Byte) :
    (a.ingest c b).x = a.x.set a.nx b a.nx_lt := by
  unfold Accumulator.ingest
  simp only
  split <;> rfl

/-- WRITE's loop over a payload in two parts is the loop over the first and then over the second. -/
theorem Accumulator.foldl_ingest_append (c : Config) (d e : List Byte) (a : Accumulator) :
    (d ++ e).foldl (Accumulator.ingest c) a = e.foldl (Accumulator.ingest c) (d.foldl (Accumulator.ingest c) a) :=
  List.foldl_append

theorem Accumulator.write_len (c : Config) (d : List Byte) (a : Accumulator) :
    (a.write c d).len = a.len + BitVec.ofNat 64 d.length := by
  have go : ∀ (d : List Byte) (a : Accumulator),
      (d.foldl (Accumulator.ingest c) a).len = a.len + BitVec.ofNat 64 d.length := by
    intro d
    induction d with
    | nil => simp
    | cons b d ih =>
      intro a
      rw [List.foldl_cons, ih, Accumulator.ingest_len, List.length_cons]
      apply BitVec.eq_of_toNat_eq
      simp [BitVec.toNat_add]
      omega
  have hs : (a.seedFirst c d).len = a.len := by
    cases d with
    | nil => rfl
    | cons b d => simp only [Accumulator.seedFirst]; split <;> rfl
  rw [Accumulator.write, go, hs]

@[simp] theorem Accumulator.write_nil (c : Config) (a : Accumulator) : a.write c [] = a := rfl

/-! ## The codec -/

@[simp] theorem Accumulator.marshal_length (a : Accumulator) : a.marshal.length = blobSize := by
  have h : ∀ ws : List Word, (ws.flatMap fun w => beBytes 4 w.toNat).length = 4 * ws.length := by
    intro ws
    induction ws with
    | nil => rfl
    | cons w ws ih => simp [ih]; omega
  simp [Accumulator.marshal, h, tag, blobSize]

/-- What UNMARSHAL can answer: on success a payload of 108 bytes that begins with the tag, on an error one of the two kinds. -/
theorem unmarshal_cases (b : List Byte) :
    (b.take 4 ≠ tag ∧ unmarshal b = .error .invalidTag) ∨
    (b.take 4 = tag ∧ b.length ≠ blobSize ∧ unmarshal b = .error .invalidLength) ∨
    (b.take 4 = tag ∧ b.length = blobSize ∧ unmarshal b = .ok (Accumulator.ofBlob b)) := by
  unfold unmarshal
  split
  · next h => exact .inl ⟨h, rfl⟩
  · next h =>
    rw [Decidable.not_not] at h
    split
    · next h' => exact .inr (.inl ⟨h, h', rfl⟩)
    · next h' => exact .inr (.inr ⟨h, Decidable.not_not.mp h', rfl⟩)

/-- What UNMARSHAL does with a whole payload, case by case. -/
theorem loadBlob_cases (b : List Byte) (s : State) :
    (b.take 4 ≠ tag ∧ s.loadBlob b = s.raise .invalidTag) ∨
    (b.take 4 = tag ∧ b.length ≠ blobSize ∧ s.loadBlob b = s.raise .invalidLength) ∨
    (b.take 4 = tag ∧ b.length = blobSize ∧ s.loadBlob b = (s.withAcc (Accumulator.ofBlob b)).respond .ok 0 []) := by
  unfold State.loadBlob
  rcases unmarshal_cases b with ⟨h, e⟩ | ⟨h, h', e⟩ | ⟨h, h', e⟩ <;> rw [e]
  · exact .inl ⟨h, rfl⟩
  · exact .inr (.inl ⟨h, h', rfl⟩)
  · exact .inr (.inr ⟨h, h', rfl⟩)

/-! ## Illegal words -/

/-- `illegalWord` written out. -/
theorem State.illegalWord_eq (s : State) (r : List Byte) :
    s.illegalWord r = { s with input := r, output := s.output ++ [3, 0, 0, 0], pending := none } := rfl

end Sys2Proof.Machine
end

