-- ==== Sys2Proof/Laws/PerInstr.lean ====
section
/-! SUPPORT. Families of statements about every command as syntax, one lemma per constructor. -/

namespace Sys2Proof.Laws

/-- The opcode of each command (30_encoding.md R33). -/
def opcode : Instr → Byte
  | .gfadd _ _ => 0x01
  | .gfmul _ _ => 0x02
  | .write _ => 0x10
  | .sum => 0x11
  | .reset => 0x12
  | .size => 0x13
  | .blocksize => 0x14
  | .marshal => 0x20
  | .unmarshal _ => 0x21

/-- The word of a command carries its opcode in bits 31:24, and only format L has a payload. -/
def WordHasItsOpcode.Statement (i : Instr) : Prop :=
  opField (encodeWord i) = opcode i ∧ (i.format ≠ .l → i.payloadLength = 0)

/-- The opcode field, bit by bit. -/
theorem opField_eq_of_bits (w : Word) (op : Byte) (h : ∀ k, k < 8 → w.getLsbD (24 + k) = op.getLsbD k) : opField w = op := by
  apply BitVec.eq_of_getLsbD_eq
  intro k hk
  rw [opField, BitVec.getLsbD_extractLsb', decide_eq_true hk, Bool.true_and]
  exact h k hk

/-- The opcode field of a format-Z word. -/
theorem opField_encodeZ (op : Byte) : opField (encodeZ op) = op :=
  opField_eq_of_bits _ _ fun k _ => by simp [getLsbD_encodeZ]

/-- The opcode field of a format-F word. -/
theorem opField_encodeF (op a b : Byte) : opField (encodeF op a b) = op :=
  opField_eq_of_bits _ _ fun k _ => by
    rw [encodeF_eq, getLsbD_wordOfBytes, if_neg (by omega), if_neg (by omega), if_neg (by omega)]
    congr 1
    omega

/-- The opcode field of a format-L word. -/
theorem opField_encodeL (op : Byte) (n : Nat) : opField (encodeL op n) = op :=
  opField_eq_of_bits _ _ fun k _ => by simp [getLsbD_encodeL]

theorem WordHasItsOpcode.gfadd (a b : Byte) : WordHasItsOpcode.Statement (.gfadd a b) := ⟨opField_encodeF _ _ _, fun _ => rfl⟩
theorem WordHasItsOpcode.gfmul (a b : Byte) : WordHasItsOpcode.Statement (.gfmul a b) := ⟨opField_encodeF _ _ _, fun _ => rfl⟩
theorem WordHasItsOpcode.write (n : Nat) : WordHasItsOpcode.Statement (.write n) := ⟨opField_encodeL _ _, fun h => absurd rfl h⟩
theorem WordHasItsOpcode.sum : WordHasItsOpcode.Statement .sum := ⟨opField_encodeZ _, fun _ => rfl⟩
theorem WordHasItsOpcode.reset : WordHasItsOpcode.Statement .reset := ⟨opField_encodeZ _, fun _ => rfl⟩
theorem WordHasItsOpcode.size : WordHasItsOpcode.Statement .size := ⟨opField_encodeZ _, fun _ => rfl⟩
theorem WordHasItsOpcode.blocksize : WordHasItsOpcode.Statement .blocksize := ⟨opField_encodeZ _, fun _ => rfl⟩
theorem WordHasItsOpcode.marshal : WordHasItsOpcode.Statement .marshal := ⟨opField_encodeZ _, fun _ => rfl⟩
theorem WordHasItsOpcode.unmarshal (n : Nat) : WordHasItsOpcode.Statement (.unmarshal n) := ⟨opField_encodeL _ _, fun h => absurd rfl h⟩

end Sys2Proof.Laws
end

