-- ==== Sys2Proof/Laws/Decode.lean ====
section
/-! SUPPORT. The fields of encoded words, and the word of four bytes: what the decoder reads from what the encoder writes. -/

namespace Sys2Proof

theorem argField_encodeZ (op : Byte) : argField (encodeZ op) = 0 := by
  apply BitVec.eq_of_getLsbD_eq
  intro k hk
  simp [argField, getLsbD_encodeZ, hk]

theorem argField_encodeL (op : Byte) (n : Nat) : argField (encodeL op n) = BitVec.ofNat 24 n := by
  apply BitVec.eq_of_getLsbD_eq
  intro k hk
  rw [argField, BitVec.getLsbD_extractLsb', getLsbD_encodeL, BitVec.getLsbD_ofNat, if_pos (by omega), Nat.zero_add]

theorem opField_wordOfBytes (op a b z : Byte) : opField (wordOfBytes op a b z) = op := by
  apply BitVec.eq_of_getLsbD_eq
  intro k hk
  rw [opField, BitVec.getLsbD_extractLsb', getLsbD_wordOfBytes, if_neg (by omega), if_neg (by omega), if_neg (by omega)]
  simp [hk]

theorem aField_wordOfBytes (op a b z : Byte) : aField (wordOfBytes op a b z) = a := by
  apply BitVec.eq_of_getLsbD_eq
  intro k hk
  rw [aField, BitVec.getLsbD_extractLsb', getLsbD_wordOfBytes, if_neg (by omega), if_neg (by omega), if_pos (by omega)]
  simp [hk]

theorem bField_wordOfBytes (op a b z : Byte) : bField (wordOfBytes op a b z) = b := by
  apply BitVec.eq_of_getLsbD_eq
  intro k hk
  rw [bField, BitVec.getLsbD_extractLsb', getLsbD_wordOfBytes, if_neg (by omega), if_pos (by omega)]
  simp [hk]

theorem lowField_wordOfBytes (op a b z : Byte) : lowField (wordOfBytes op a b z) = z := by
  apply BitVec.eq_of_getLsbD_eq
  intro k hk
  rw [lowField, BitVec.getLsbD_extractLsb', getLsbD_wordOfBytes, if_pos (by omega)]
  simp [hk]

/-- The four bytes of a word, put together again, are the word. -/
theorem wordOfBytes_bytes (w : Word) :
    wordOfBytes (BitVec.ofNat 8 (w.toNat >>> 24)) (BitVec.ofNat 8 (w.toNat >>> 16)) (BitVec.ofNat 8 (w.toNat >>> 8))
      (BitVec.ofNat 8 (w.toNat >>> 0)) = w := by
  apply BitVec.eq_of_getLsbD_eq
  intro k hk
  have bit : ∀ j m : Nat, j < 8 → (BitVec.ofNat 8 (w.toNat >>> m)).getLsbD j = w.getLsbD (m + j) := by
    intro j m hj
    rw [BitVec.getLsbD_ofNat, Nat.testBit_shiftRight, BitVec.testBit_toNat, decide_eq_true hj, Bool.true_and]
  rw [getLsbD_wordOfBytes]
  split_ifs
  · rw [bit _ _ (by omega)]; congr 1; omega
  · rw [bit _ _ (by omega)]; congr 1; omega
  · rw [bit _ _ (by omega)]; congr 1; omega
  · rw [bit _ _ (by omega)]; congr 1; omega

/-- What the decoder finds where the four bytes of `w` head the stream. -/
theorem decode_word (w : Word) (rest : List Byte) :
    decode (beBytes 4 w.toNat ++ rest) =
      match decodeWord w with
      | .ok i => .command i rest
      | .error why => .illegal why rest := by
  have h : decode (beBytes 4 w.toNat ++ rest) =
      match decodeWord (wordOfBytes (BitVec.ofNat 8 (w.toNat >>> 24)) (BitVec.ofNat 8 (w.toNat >>> 16))
        (BitVec.ofNat 8 (w.toNat >>> 8)) (BitVec.ofNat 8 (w.toNat >>> 0))) with
      | .ok i => .command i rest
      | .error why => .illegal why rest := rfl
  rw [h, wordOfBytes_bytes]

end Sys2Proof
end

