-- ==== Sys2Proof/Laws/Run.lean ====
section
/-! SUPPORT. The decoder's invariant and the host's moves, runs of steps, and the step as the step of a block with the configuration `Config.chip`. -/

namespace Sys2Proof.Machine

/-! ## The decoder's invariant -/

theorem State.inv_iff (s : State) :
    s.inv = true ↔ s.pendingIsFormatL = true ∧ ∀ i, s.pending = some i → s.input.length < i.payloadLength := by
  cases h : s.pending <;> simp [State.inv, h]

@[simp] theorem State.hostSend_pendingIsFormatL (s : State) (bs : List Byte) :
    (s.hostSend bs).pendingIsFormatL = s.pendingIsFormatL := rfl
@[simp] theorem State.hostReceive_pendingIsFormatL (s : State) (n : Nat) :
    (s.hostReceive n).2.pendingIsFormatL = s.pendingIsFormatL := rfl
@[simp] theorem State.hostReset_pendingIsFormatL (s : State) : s.hostReset.pendingIsFormatL = s.pendingIsFormatL := rfl

/-! ## Runs -/

theorem run_zero (s : State) : run 0 s = .next s := rfl

/-- A run takes its first step first. -/
theorem run_succ {s t : State} (k : Nat) (h : step s = .next t) : run (k + 1) s = run k t := by
  have h' : core.step s = .next t := h
  unfold run
  simp only [Host.Core.run]
  rw [h']

/-- `exec` is `execUnder` at the block's own configuration. -/
theorem execUnder_chip (i : Instr) (s : State) : execUnder Config.chip i s = exec i s := by
  cases i <;> rfl

/-- `step` is `stepUnder` at the block's own configuration. -/
theorem stepUnder_chip (s : State) : stepUnder Config.chip s = step s := by
  simp only [stepUnder, step, execUnder_chip]
  all_goals rfl

end Sys2Proof.Machine
end

