-- ==== Sys2Proof/Tests/Slice0.lean ====
section
/-! SUPPORT. The model's own tests. Expected values come from spec/95_test_vectors.md (sections 2 to 4 and programs P1 to P5)
under its illustrative configurations TC1 and TC2, or from the encodings of 30_encoding.md written out by hand. Then one witness
for the hypotheses of each obligation that has any. -/

namespace Sys2Proof.Tests

open Sys2Proof.Machine

/-! ## The two test configurations (95_test_vectors.md section 1) -/

theorem tc1_perm_bijective :
    Function.Bijective fun i : Fin 64 => (Vector.ofFn fun i : Fin 64 => Fin.ofNat 64 (37 * i.val + 11))[i] :=
  Function.bijective_iff_has_inverse.mpr ⟨fun v => Fin.ofNat 64 (45 * (v.val + 53)),
    by unfold Function.LeftInverse; decide, by unfold Function.RightInverse Function.LeftInverse; decide⟩

/-- TC1: `POLY = 0x11D`, `PERM[i] = (37 i + 11) mod 64`, `COEF[i] = i + 1`. -/
def tc1 : Config where
  poly := 0x11D
  perm := Vector.ofFn fun i : Fin 64 => Fin.ofNat 64 (37 * i.val + 11)
  coef := Vector.ofFn fun i => BitVec.ofNat 8 (i.val + 1)
  poly_irreducible := by decide
  perm_bijective := tc1_perm_bijective

/-- TC2: `POLY = 0x11B`, `PERM[i] = i`, `COEF[i]` 2 for even and 3 for odd `i`. -/
def tc2 : Config where
  poly := 0x11B
  perm := Vector.ofFn id
  coef := Vector.ofFn fun i => if i.val % 2 = 0 then 0x02 else 0x03
  poly_irreducible := by decide
  perm_bijective := identity_table_bijective

/-- The bytes `0, 1, ..., n-1`. -/
def upTo (n : Nat) : List Byte := (List.range n).map (BitVec.ofNat 8)

/-- `n` copies of the bytes `bs`. -/
def copies (n : Nat) (bs : List Byte) : List Byte := (List.replicate n bs).flatten

/-- A block just reset with `bs` on its command stream. -/
def withStream (bs : List Byte) : State := { State.reset with input := bs }

/-- The responses and the logical state after a step, where there is a next state. -/
def seen : Host.Outcome State Fault Refusal → Option (List Byte × (Vector Word 8 × List Byte × BitVec 64))
  | .next t => some (t.output, t.acc.logical)
  | .fault _ => none
  | .refused _ => none

/-! ## Well-formedness refuses what no word can say (30_encoding.md R30, R36) -/

theorem test_write_over_lmax_ill_formed : (Instr.write 16777216).wellFormed = false := by decide
theorem test_unmarshal_over_lmax_ill_formed : (Instr.unmarshal 16777216).wellFormed = false := by decide
theorem test_write_lmax_well_formed : (Instr.write 16777215).wellFormed = true := by decide

/-! ## Decoding, words written from 30_encoding.md R30, R33, R39 -/

theorem test_decode_gfadd : decode [0x01, 0x57, 0x83, 0x00] = .command (.gfadd 0x57 0x83) [] := by decide
theorem test_decode_gfmul : decode [0x02, 0x53, 0xCA, 0x00] = .command (.gfmul 0x53 0xCA) [] := by decide
theorem test_decode_write : decode [0x10, 0x01, 0x00, 0x03, 0x61] = .command (.write 65539) [0x61] := by decide
theorem test_decode_sum : decode [0x11, 0x00, 0x00, 0x00] = .command .sum [] := by decide
theorem test_decode_reset : decode [0x12, 0x00, 0x00, 0x00] = .command .reset [] := by decide
theorem test_decode_size : decode [0x13, 0x00, 0x00, 0x00] = .command .size [] := by decide
theorem test_decode_blocksize : decode [0x14, 0x00, 0x00, 0x00] = .command .blocksize [] := by decide
theorem test_decode_marshal : decode [0x20, 0x00, 0x00, 0x00] = .command .marshal [] := by decide
theorem test_decode_unmarshal : decode [0x21, 0x00, 0x00, 0x6C] = .command (.unmarshal 108) [] := by decide

/-- The illegal words of program P3 and one case of each kind of R35. -/
theorem test_decode_illegal :
    decode [0xFF, 0x00, 0x00, 0x00] = .illegal .unknownOpcode [] ∧
    decode [0x00, 0x00, 0x00, 0x00] = .illegal .unknownOpcode [] ∧
    decode [0x11, 0x00, 0x00, 0x01] = .illegal .nonzeroArg [] ∧
    decode [0x02, 0x57, 0x83, 0x01] = .illegal .nonzeroLowByte [] := by decide

theorem test_decode_three_bytes : decode [0x11, 0x00, 0x00] = .incomplete := by decide

theorem test_encode_write : encode (.write 0x010203) = [0x10, 0x01, 0x02, 0x03] := by decide
theorem test_encode_gfmul : encode (.gfmul 0x57 0x83) = [0x02, 0x57, 0x83, 0x00] := by decide

theorem test_table_word_gfmul : decodeTableWord 32 0x02578300 = some (.gfmul 0x57 0x83) := by decide
theorem test_table_word_write : decodeTableWord 32 0x10FFFFFF = some (.write 16777215) := by decide
theorem test_table_word_illegal : decodeTableWord 32 0x11000001 = none := by decide

/-! ## Field arithmetic (95_test_vectors.md section 2) -/

theorem test_gfmul_tc1 : gfmul 0x11D 0x57 0x83 = 0x31 ∧ gfmul 0x11D 0xFF 0xFF = 0xE2 ∧ gfmul 0x11D 0x80 0x80 = 0x13 := by decide
theorem test_gfmul_tc2 : gfmul 0x11B 0x57 0x13 = 0xFE ∧ gfmul 0x11B 0x53 0xCA = 0x01 ∧ gfmul 0x11B 0xFF 0x1C = 0x01 := by decide
theorem test_gfmul_reducible_zero_divisor : isIrreducible 0x101 = false ∧ gfmul 0x101 0x03 0xFF = 0 := by decide

/-- 95_test_vectors.md section 2.1: thirty admissible polynomials. -/
theorem test_thirty_polynomials :
    ((List.range 512).filter fun k => isIrreducible (BitVec.ofNat 9 k)).length = 30 := by decide +kernel

/-! ## Compression and accumulator (95_test_vectors.md section 3) -/

/-- TC2: `FOLD(zeros, [1, 2, ...])` begins `02 06 06 0C`, and SEED(61) is `C2 A3 C2 A3 ...` (41_compression.md R50, R51). -/
theorem test_fold_and_seed_tc2 :
    (fold tc2 (Vector.replicate 32 0) (Vector.ofFn fun j => BitVec.ofNat 8 (j.val + 1))).toList.take 4 = [0x02, 0x06, 0x06, 0x0C] ∧
    (seed tc2 0x61).toList = copies 16 [0xC2, 0xA3] := by decide

/-- TC1: the digest of `a`. -/
theorem test_digest_a_tc1 :
    (digestOf tc1 [0x61]).toList =
      [0x61, 0xc2, 0xa3, 0x99, 0xf8, 0x5b, 0x3a, 0x2f, 0x4e, 0xed, 0x8c, 0xb6, 0xd7, 0x74, 0x15, 0x5e,
       0x3f, 0x00, 0xfd, 0xc7, 0xa6, 0x05, 0x64, 0x71, 0x10, 0xb3, 0xd2, 0xe8, 0x89, 0x2a, 0x4b, 0xbc] := by decide

/-- TC2: the digest of `abcdef`. -/
theorem test_digest_abcdef_tc2 :
    (digestOf tc2 [0x61, 0x62, 0x63, 0x64, 0x65, 0x66]).toList =
      [0x00, 0x05, 0x04, 0x0f, 0x08, 0x09] ++ copies 13 [0xc2, 0xa3] := by decide

/-- TC1: the digest of `00 01 .. 40` (65 bytes), and TC2 of `00 01 .. 81` (130 bytes). -/
theorem test_digest_65_tc1 :
    (digestOf tc1 (upTo 65)).toList =
      [0x0b, 0x60, 0x3f, 0xe8, 0x63, 0x18, 0xdf, 0x70, 0xb6, 0xf0, 0xb2, 0x85, 0x23, 0x95, 0xff, 0x47,
       0xb6, 0xf4, 0x05, 0x88, 0x59, 0x25, 0x18, 0x0d, 0x2b, 0xb7, 0xaf, 0x42, 0x9e, 0x92, 0xd8, 0xc0] := by decide +kernel

theorem test_digest_130_tc2 :
    (digestOf tc2 (upTo 130)).toList = [0x9b, 0x58] ++ copies 15 [0x80, 0xc0] := by decide +kernel

/-! ## Codec (95_test_vectors.md section 4) -/

/-- The TC2 blob after WRITE `abc`. -/
def abcBlob : List Byte :=
  [0x68, 0x6f, 0x6d, 0x6f] ++ copies 16 [0xc2, 0xa3] ++ [0x61, 0x62, 0x63] ++ List.replicate 61 0 ++ [0, 0, 0, 0, 0, 0, 0, 3]

theorem test_marshal_abc_tc2 : (absorb tc2 [0x61, 0x62, 0x63]).marshal = abcBlob := by decide

/-- TC2: the blob after `00 01 .. 45` has zeros where the buffer physically holds old bytes. -/
theorem test_marshal_70_tail_tc2 :
    (absorb tc2 (upTo 70)).marshal.drop 36 =
      [0x40, 0x41, 0x42, 0x43, 0x44, 0x45] ++ List.replicate 58 0 ++ [0, 0, 0, 0, 0, 0, 0, 0x46] := by decide +kernel

/-- The counter changed from 3 to 2: `NX` follows it, and the digest is `00 05` then `C2 A3`. -/
theorem test_unmarshal_counter_two_tc2 :
    (unmarshal (abcBlob.set 107 2)).toOption.map (fun a => (a.valid, (a.digest tc2).toList)) =
      some ([0x61, 0x62], [0x00, 0x05] ++ copies 15 [0xc2, 0xa3]) := by decide

/-- The counter changed to 0: the next byte `b` overwrites `H` with its seed, and the digest is that of `b`. -/
theorem test_unmarshal_counter_zero_tc2 :
    (unmarshal (abcBlob.set 107 0)).toOption.map (fun a => ((a.digest tc2).toList, ((a.write tc2 [0x62]).digest tc2).toList)) =
      some (copies 16 [0xc2, 0xa3], [0x00, 0xa6] ++ copies 15 [0xc4, 0xa6]) := by decide

/-! ## One step of the machine -/

theorem test_step_gfadd : seen (step (withStream [0x01, 0x57, 0x83, 0x00])) =
    some ([0x00, 0x00, 0x00, 0xD4], State.reset.acc.logical) := by decide

theorem test_step_size : seen (step (withStream [0x13, 0, 0, 0])) = some ([0, 0, 0, 0x20], State.reset.acc.logical) := by decide
theorem test_step_blocksize : seen (step (withStream [0x14, 0, 0, 0])) = some ([0, 0, 0, 0x40], State.reset.acc.logical) := by decide

/-- A fresh block answers 32 zero bytes to SUM whatever its configuration (42_accumulator.md R61 (a)). -/
theorem test_step_sum_fresh : seen (step (withStream [0x11, 0, 0, 0])) =
    some ([0, 0, 0, 0x20] ++ List.replicate 32 0, State.reset.acc.logical) := by decide

/-- A fresh block marshals to the tag and 104 zero bytes (43_codec.md R70). -/
theorem test_step_marshal_fresh : seen (step (withStream [0x20, 0, 0, 0])) =
    some ([0, 0, 0, 0x6C, 0x68, 0x6F, 0x6D, 0x6F] ++ List.replicate 104 0, State.reset.acc.logical) := by decide

/-- UNMARSHAL of `b` on a fresh block answers the status `code` and leaves it fresh. -/
def failsWith (b : List Byte) (code : Byte) : Bool :=
  seen (step (withStream (unmarshalCommand b))) == some ([code, 0, 0, 0], State.reset.acc.logical)

/-- The rows of the UNMARSHAL table of section 4 that fail. -/
theorem test_step_unmarshal_errors :
    failsWith [] 1 && failsWith [0x68, 0x6F, 0x6D] 1 && failsWith [0x68, 0x6F, 0x6D, 0x6F] 2 && failsWith (abcBlob.take 107) 2 &&
    failsWith (abcBlob ++ [0]) 2 && failsWith (abcBlob.set 0 0x48) 1 && failsWith (List.replicate 107 0) 1 := by decide +kernel

theorem test_step_unmarshal_abc : seen (step (withStream (unmarshalCommand abcBlob))) =
    some ([0, 0, 0, 0], Vector.replicate 8 0xC2A3C2A3, [0x61, 0x62, 0x63], 3) := by decide +kernel

/-- RESET of a context that is not fresh. -/
theorem test_step_reset : seen (step { withStream [0x12, 0, 0, 0] with acc := Accumulator.ofBlob abcBlob }) =
    some ([0, 0, 0, 0], State.reset.acc.logical) := by decide

/-- A WRITE that neither seeds nor folds: the bytes go behind the three valid ones. -/
theorem test_step_write : seen (step { withStream [0x10, 0, 0, 2, 0x64, 0x65, 0xFF] with acc := Accumulator.ofBlob abcBlob }) =
    some ([0, 0, 0, 2], Vector.replicate 8 0xC2A3C2A3, [0x61, 0x62, 0x63, 0x64, 0x65], 5) := by decide

theorem test_step_illegal : seen (step (withStream [0xFF, 0, 0, 0])) = some ([3, 0, 0, 0], State.reset.acc.logical) := by decide

theorem test_step_fetch_word : seen (step (State.reset.withFetchWord 32 0x01578300)) =
    some ([0, 0, 0, 0xD4], State.reset.acc.logical) := by decide

/-- Program P4 under both configurations: `GFMUL 0x57, 0x90`. -/
theorem test_step_gfmul_tc1_tc2 :
    seen (stepUnder tc1 (withStream [0x02, 0x57, 0x90, 0x00])) = some ([0, 0, 0, 0xD1], State.reset.acc.logical) ∧
    seen (stepUnder tc2 (withStream [0x02, 0x57, 0x90, 0x00])) = some ([0, 0, 0, 0x3F], State.reset.acc.logical) :=
  ⟨by decide, by decide⟩

/-- The worked example of 42_accumulator.md R60, TC2: WRITE `abc` from reset. -/
theorem test_step_write_abc_tc2 : seen (stepUnder tc2 (withStream [0x10, 0x00, 0x00, 0x03, 0x61, 0x62, 0x63])) =
    some ([0, 0, 0, 3], Vector.replicate 8 0xC2A3C2A3, [0x61, 0x62, 0x63], 3) := by decide

/-- The worked example of R61, TC2: SUM after `abc`. -/
theorem test_step_sum_abc_tc2 : seen (stepUnder tc2 { withStream [0x11, 0, 0, 0] with acc := Accumulator.ofBlob abcBlob }) =
    some ([0, 0, 0, 0x20, 0x00, 0x05, 0x04, 0xA3] ++ copies 14 [0xC2, 0xA3], Vector.replicate 8 0xC2A3C2A3, [0x61, 0x62, 0x63], 3) := by
  decide +kernel

/-- 30_encoding.md R39, worked example, and the expansion of `HASH`. -/
theorem test_script_bytes :
    (Line.write [0x61, 0x62, 0x63]).bytes = [0x10, 0x00, 0x00, 0x03, 0x61, 0x62, 0x63] ∧
    (Script.hash [0x61]).bytes = [0x12, 0, 0, 0, 0x10, 0, 0, 1, 0x61, 0x11, 0, 0, 0] := by decide

/-! ## A witness for the hypotheses of each obligation that has any -/

theorem witness_DecodingTheEncodingGivesTheCommand :
    (Instr.write 16777215).wellFormed = true ∧ (Instr.unmarshal 0).wellFormed = true := by decide

theorem witness_EveryLegalWordIsTheEncodingOfItsCommand :
    decodeWord 0x10FFFFFF = .ok (.write 16777215) ∧ decodeWord 0x02578300 = .ok (.gfmul 0x57 0x83) := by decide

theorem witness_StepRunsTheDecodedCommand :
    (withStream [0x12, 0, 0, 0, 0x61]).idle ∧
    decode (withStream [0x12, 0, 0, 0, 0x61]).input = .command .reset [0x61] ∧
    Instr.reset.wellFormed = true ∧ (withStream [0x12, 0, 0, 0, 0x61]).input = encode .reset ++ [0x61] := by
  unfold State.idle; decide

theorem witness_IllegalWordIsAnsweredAndDropped :
    (withStream [0x11, 0, 0, 1, 0x61]).idle ∧ (withStream [0x11, 0, 0, 1, 0x61]).input = 0x11 :: 0 :: 0 :: 1 :: [0x61] ∧
    ∀ r ∈ opcodeRows, ((0x11 : Byte) ++ (0 : Byte) ++ (0 : Byte) ++ (1 : Byte) : Word) &&& r.1 ≠ r.2 :=
  ⟨⟨rfl, rfl⟩, rfl, by simp [opcodeRows]⟩

theorem witness_IdleBlockWaitsForACommandWord :
    (withStream [0x11, 0, 0]).idle ∧ (withStream [0x11, 0, 0]).input.length < 4 := by unfold State.idle; decide

/-- One state for each of the two commands, at the boundary: one byte short. -/
theorem witness_IncompletePayloadWaits :
    ({ withStream [0x61] with pending := some (.write 2) }.input.length < 2 ∧
      { withStream [0x61] with pending := some (.write 2) }.resetLine = false ∧
      { withStream [0x61] with pending := some (.write 2) }.pending = some (.write 2)) ∧
    ({ withStream [0x61] with pending := some (.unmarshal 2) }.input.length < 2 ∧
      { withStream [0x61] with pending := some (.unmarshal 2) }.resetLine = false ∧
      { withStream [0x61] with pending := some (.unmarshal 2) }.pending = some (.unmarshal 2)) := by decide

theorem witness_LatePayloadGivesTheSameStep :
    (withStream (encode (.write 2) ++ [0x61])).idle ∧ (Instr.write 2).wellFormed = true ∧
    ([0x61] : List Byte).length < (Instr.write 2).payloadLength := by unfold State.idle; decide

/-- A state that waits, and the state after the host has sent the missing byte, which lies outside `inv` and whose step ends the
command. -/
theorem witness_EveryStepKeepsTheDecoderInvariant :
    ({ withStream [0x61] with pending := some (.write 2) }.pendingIsFormatL = true ∧
      step { withStream [0x61] with pending := some (.write 2) } = .next { withStream [0x61] with pending := some (.write 2) }) ∧
    ({ withStream [0x61, 0x62] with pending := some (.write 2) }.pendingIsFormatL = true ∧
      { withStream [0x61, 0x62] with pending := some (.write 2) }.inv = false ∧
      ∃ t, step { withStream [0x61, 0x62] with pending := some (.write 2) } = .next t ∧ t.pending = none) :=
  ⟨⟨by decide, rfl⟩, by decide, by decide, _, rfl, rfl⟩

theorem witness_EveryCommandAnswersOneResponse :
    exec (.write 2) (withStream [0x61]) = .next { withStream [0x61] with pending := some (.write 2) } ∧
    exec .size (withStream [0x61]) = .next { withStream [0x61] with output := [0, 0, 0, 32] } := ⟨rfl, rfl⟩

theorem witness_OnlyWriteResetAndUnmarshalWriteTheContext :
    ∃ t, exec .reset { State.reset with acc := Accumulator.ofBlob abcBlob } = .next t ∧ t.acc ≠ Accumulator.ofBlob abcBlob :=
  ⟨_, rfl, by decide⟩

/-- Two states that differ in the tail of `X`. -/
theorem witness_TailOfTheBufferIsUnobservable :
    State.reset.agree { State.reset with acc := { Accumulator.fresh with x := Vector.replicate 64 0xFF } } ∧
    State.reset ≠ { State.reset with acc := { Accumulator.fresh with x := Vector.replicate 64 0xFF } } := by
  unfold State.agree; decide

theorem witness_ShiftAndAddIsTheRemainderOfTheProduct : (0x11B : BitVec 9).getLsbD 8 = true := by decide

theorem witness_FieldOperationsObeyTheirLaws : (0x101 : BitVec 9).getLsbD 8 = true := by decide

theorem witness_NonzeroElementsHaveInverses :
    gfmul tc2.poly 0x53 0xCA = 1 ∧ gfmul tc2.poly 0x53 0 = 0 ∧ (0x53 : Byte) ≠ 0 := by decide

theorem witness_FoldingTwiceRestoresTheState : (default : Config).coef[(3 : Fin 32).val] = 0 := by decide

theorem witness_WriteIngestsItsPayloadBlockByBlock :
    ([0x61, 0x62] : List Byte).length = 2 ∧ (withStream [0x61, 0x62, 0x11]).input = [0x61, 0x62] ++ [0x11] ∧
    ([] : List Byte).length = 0 := by decide

theorem witness_ChunkingDoesNotMatter :
    (withStream ([[0x61], [], [0x62, 0x63]].flatMap writeCommand)).idle ∧
    (∀ p ∈ ([[0x61], [], [0x62, 0x63]] : List (List Byte)), p.length ≤ lmax) ∧
    (withStream ([[0x61], [], [0x62, 0x63]].flatMap writeCommand)).acc.len.toNat +
      ([[0x61], [], [0x62, 0x63]] : List (List Byte)).flatten.length < 2 ^ 64 ∧
    ([[0x61], [], [0x62, 0x63]] : List (List Byte)).flatten.length ≤ lmax := by
  unfold State.idle; decide +kernel

theorem witness_DigestHasTheClosedForm : ([0x61] : List Byte) ≠ [] ∧ ([0x61] : List Byte).length < 2 ^ 64 := by decide

theorem gfmul_zero_left (poly : BitVec 9) (b : Byte) : gfmul poly 0 b = 0 := by
  have go : ∀ ks : List Nat, ks.foldl (gfmulStep poly b) (0, 0) = (0, 0) := by
    intro ks
    induction ks with
    | nil => rfl
    | cons k ks ih => simpa [gfmulStep, xtime] using ih
  exact congrArg Prod.fst (go _)

theorem witness_RunningStateIsTheClosedFormOfTheBytesWritten :
    State.reset.acc.holds Config.chip [] ∧ (withStream [0x61]).input = [0x61] ++ [] ∧ 0 + ([0x61] : List Byte).length < 2 ^ 64 ∧
    (withStream State.reset.acc.marshal).input = State.reset.acc.marshal ++ [] ∧
    (rejectedBlob [0x61] ∧ rejectedBlob (abcBlob ++ [0])) ∧
    ((withStream [0xFF, 0, 0, 0]).idle ∧ (withStream [0xFF, 0, 0, 0]).input = 0xFF :: 0 :: 0 :: 0 :: [] ∧
      ∀ r ∈ opcodeRows, ((0xFF : Byte) ++ (0 : Byte) ++ (0 : Byte) ++ (0 : Byte) : Word) &&& r.1 ≠ r.2) := by
  refine ⟨⟨by decide, by decide, by decide, fun i => ?_⟩, rfl, by decide, (List.append_nil _).symm,
    ⟨.inl (by decide), .inr (by decide)⟩, ⟨rfl, rfl⟩, rfl, by simp [opcodeRows]⟩
  have h : stateByte State.reset.acc.h i = 0 := by revert i; decide
  rw [h]
  simp [closedLane, xorAll]
  exact (gfmul_zero_left _ _).symm

theorem witness_HashingAfterResetIsHashingAfresh :
    (withStream (encode .reset ++ writeCommand [0x61] ++ encode .sum)).idle ∧ ([0x61] : List Byte).length ≤ lmax := by
  unfold State.idle; decide +kernel

theorem witness_HashScriptAnswersTheDigest :
    (withStream (Script.hash [0x61]).bytes).idle ∧ ([0x61] : List Byte).length < 2 ^ 64 := by
  unfold State.idle; decide +kernel

theorem witness_SumDoesNotDisturbTheStream :
    ReadsOnly (encode .sum) ∧ ReadsOnly (unmarshalCommand []) ∧ ReadsOnly (beBytes 4 (0xFF000000 : Word).toNat) :=
  ⟨.answer .sum (.inl rfl), .failedUnmarshal [] (.inl (by decide)) (by decide), .illegal _ (by simp [opcodeRows])⟩

theorem witness_DigestIsAHomomorphism :
    ∀ kd ∈ ([(0x1D, [0x68, 0x65]), (0xA7, [0x77, 0x6F])] : List (Byte × List Byte)), kd.2.length = 2 := by decide

theorem witness_TrailingZerosDoNotChangeTheDigest : ([0x61] : List Byte).length + 64 < 2 ^ 64 := by decide

/-- TC2 never reads offset 32. -/
theorem witness_UnreadOffsetsDoNotAffectTheDigest :
    (upTo 33).head? = ((upTo 33).set 32 0xFF).head? ∧ upTo 33 ≠ (upTo 33).set 32 0xFF ∧
    ∀ q, q < (upTo 33).length → (∃ i : Fin 32, (tc2.perm[i.val]).val = q % 64) → (upTo 33)[q]? = ((upTo 33).set 32 0xFF)[q]? := by
  decide +kernel

theorem witness_BlockSwapsDoNotChangeTheDigest :
    (64 ∣ (upTo 0).length ∧ (upTo 64).length = 64 ∧ (List.replicate 64 (0 : Byte)).length = 64 ∧
      (upTo 64).head? = (List.replicate 64 (0 : Byte)).head?) ∧
    (64 ∣ (upTo 64).length ∧ upTo 64 ≠ []) ∧
    (0 < 1 ∧ 1 < 65 ∧ 65 < (upTo 66).length ∧ 1 % 64 = 65 % 64) := by decide

theorem witness_CounterZeroContextForgetsItsStateAtTheNextWrite :
    (Accumulator.ofBlob (abcBlob.set 107 0)).len = 0 ∧ (Accumulator.ofBlob (abcBlob.set 107 0)).h ≠ Accumulator.fresh.h := by decide

theorem witness_UnmarshalLoadsTheContext :
    abcBlob.length = 108 ∧ abcBlob.take 4 = [0x68, 0x6F, 0x6D, 0x6F] ∧ (withStream abcBlob).input = abcBlob ++ [] := by decide

theorem witness_UnmarshalRejectsWrongTagThenWrongLength :
    ([0x68, 0x6F, 0x6D] : List Byte).length < 4 ∧ (abcBlob.set 3 0x70).take 4 ≠ [0x68, 0x6F, 0x6D, 0x6F] ∧
    ([0x68, 0x6F, 0x6D, 0x6F] : List Byte).take 4 = [0x68, 0x6F, 0x6D, 0x6F] ∧
    ([0x68, 0x6F, 0x6D, 0x6F] : List Byte).length ≠ 108 ∧
    (abcBlob.take 107).take 4 = [0x68, 0x6F, 0x6D, 0x6F] ∧ (abcBlob.take 107).length ≠ 108 ∧
    (abcBlob ++ [0]).take 4 = [0x68, 0x6F, 0x6D, 0x6F] ∧ (abcBlob ++ [0]).length ≠ 108 := by decide

theorem witness_MarshalledStateIsRestored :
    (withStream ((Accumulator.ofBlob abcBlob).marshal ++ [0x11])).input =
      { State.reset with acc := Accumulator.ofBlob abcBlob }.acc.marshal ++ [0x11] := rfl

theorem witness_MarshalCanonicalisesTheLoadedBlob :
    (abcBlob.set 99 0x77).length = 108 ∧ (abcBlob.set 99 0x77).take 4 = tag ∧
    (withStream (abcBlob.set 99 0x77)).input = abcBlob.set 99 0x77 ++ [] := by decide

end Sys2Proof.Tests
end

section
/-! SUPPORT. The polynomial over GF(2) that a bit vector stands for (40_field_arithmetic.md R40: bit k is the coefficient of
x^k). Through it exclusive or is addition, `clmul` is the product and `polyRem` the remainder, so Mathlib's theorems on
polynomials over a field speak about the model's own operations. -/

namespace Sys2Proof

/-- The polynomial over GF(2) whose coefficient of `x^k` is bit `k` of `v`. -/
noncomputable def gf2Poly {w : Nat} (v : BitVec w) : Polynomial (ZMod 2) :=
  Polynomial.ofFn w fun i => if v.getLsbD i then 1 else 0

@[simp] theorem gf2Poly_coeff {w : Nat} (v : BitVec w) (i : Nat) : (gf2Poly v).coeff i = if v.getLsbD i then 1 else 0 := by
  unfold gf2Poly
  by_cases h : i < w
  · simp [h]
  · have hw : w ≤ i := Nat.le_of_not_lt h
    simp [hw]

theorem gf2Poly_injective {w : Nat} : Function.Injective (gf2Poly (w := w)) := by
  intro u v h
  refine BitVec.eq_of_getLsbD_eq fun i _ => ?_
  have hi := congrArg (fun q => q.coeff i) h
  simp only [gf2Poly_coeff] at hi
  split_ifs at hi <;> simp_all

/-! ## The operations on bits -/

@[simp] theorem gf2Poly_zero {w : Nat} : gf2Poly 0#w = 0 := by
  ext i
  simp

@[simp] theorem gf2Poly_eq_zero_iff {w : Nat} (v : BitVec w) : gf2Poly v = 0 ↔ v = 0#w := by
  rw [← gf2Poly_zero (w := w), gf2Poly_injective.eq_iff]

/-- Exclusive or is addition. -/
@[simp] theorem gf2Poly_xor {w : Nat} (u v : BitVec w) : gf2Poly (u ^^^ v) = gf2Poly u + gf2Poly v := by
  have two : (1 + 1 : ZMod 2) = 0 := by decide
  ext i
  cases hu : u.getLsbD i <;> cases hv : v.getLsbD i <;> simp [hu, hv, two]

/-- Widening changes no coefficient. -/
theorem gf2Poly_setWidth {w n : Nat} (v : BitVec w) (h : w ≤ n) : gf2Poly (v.setWidth n) = gf2Poly v := by
  ext i
  by_cases hi : i < n
  · simp [hi]
  · simp [hi, BitVec.getLsbD_of_ge v i (by omega)]

/-- A shift by `k` that moves no set bit out of the word multiplies by `x^k`. -/
theorem gf2Poly_shiftLeft {w : Nat} (v : BitVec w) (k : Nat) (h : ∀ i, w ≤ i + k → v.getLsbD i = false) :
    gf2Poly (v <<< k) = gf2Poly v * Polynomial.X ^ k := by
  ext i
  rw [Polynomial.coeff_mul_X_pow']
  by_cases hk : k ≤ i
  · by_cases hi : i < w
    · simp [hi, hk, Nat.not_lt.mpr hk, BitVec.getLsbD_eq_getElem (x := v) (show i - k < w by omega)]
    · simp [hi, hk, h (i - k) (by omega)]
  · simp [hk, Nat.lt_of_not_le hk]

/-! ## Degrees -/

/-- The degree is the position of the highest set bit. -/
theorem gf2Poly_natDegree {w : Nat} (v : BitVec w) : (gf2Poly v).natDegree = Nat.log2 v.toNat := by
  by_cases hv : v = 0#w
  · simp [hv, Nat.log2_zero]
  have hn : v.toNat ≠ 0 := fun h => hv (BitVec.eq_of_toNat_eq h)
  refine Polynomial.natDegree_eq_of_le_of_coeff_ne_zero (Polynomial.natDegree_le_iff_coeff_eq_zero.mpr fun i hi => ?_) ?_
  · have high : v.toNat.testBit i = false := Nat.testBit_lt_two_pow ((Nat.log2_lt hn).mp hi)
    simp [BitVec.getLsbD, high]
  · simp [BitVec.getLsbD, Nat.testBit_log2 hn]

/-- The bit patterns from 2 on are the polynomials of positive degree. -/
theorem gf2Poly_natDegree_pos_iff {w : Nat} (v : BitVec w) : 0 < (gf2Poly v).natDegree ↔ 2 ≤ v.toNat := by
  rw [gf2Poly_natDegree]
  by_cases hn : v.toNat = 0
  · simp [hn, Nat.log2_zero]
  · exact Nat.le_log2 hn

/-- Every polynomial of degree below `w` is that of a `w`-bit value. -/
theorem exists_gf2Poly_eq {w : Nat} (q : Polynomial (ZMod 2)) (h : q.natDegree < w) : ∃ v : BitVec w, gf2Poly v = q := by
  have bit_cases : ∀ c : ZMod 2, (if c = 1 then 1 else 0) = c := by decide
  refine ⟨BitVec.ofFnLE fun i => decide (q.coeff i = 1), Polynomial.ext fun i => ?_⟩
  by_cases hi : i < w
  · simp [hi, bit_cases]
  · have hw : w ≤ i := Nat.le_of_not_lt hi
    simp [BitVec.getLsbD_of_ge _ i hw, Polynomial.coeff_eq_zero_of_natDegree_lt (h.trans_le hw)]

/-- Over GF(2) the only non-zero leading coefficient is one. -/
theorem monic_of_ne_zero_gf2 {q : Polynomial (ZMod 2)} (h : q ≠ 0) : q.Monic := by
  have one_of_ne_zero : ∀ c : ZMod 2, c ≠ 0 → c = 1 := by decide
  exact one_of_ne_zero _ (Polynomial.leadingCoeff_ne_zero.mpr h)

theorem monic_of_natDegree_pos_gf2 {q : Polynomial (ZMod 2)} (h : 0 < q.natDegree) : q.Monic :=
  monic_of_ne_zero_gf2 (Polynomial.ne_zero_of_natDegree_gt h)

/-! ## `clmul` and `polyRem` -/

/-- The carry-less product is the product of polynomials (40_field_arithmetic.md R42, the definition). -/
theorem gf2Poly_clmul (a b : Byte) : gf2Poly (clmul a b) = gf2Poly a * gf2Poly b := by
  have shifted (k : Nat) (hk : k ≤ 8) : gf2Poly (a.setWidth 16 <<< k) = gf2Poly a * Polynomial.X ^ k := by
    rw [gf2Poly_shiftLeft, gf2Poly_setWidth _ (by decide)]
    intro i hi
    simp [BitVec.getLsbD_of_ge a i (by omega)]
  have partialSum (n : Nat) (hn : n ≤ 8) :
      gf2Poly ((List.range n).foldl (fun r k => if b.getLsbD k then r ^^^ (a.setWidth 16 <<< k) else r) 0) =
        gf2Poly a * ∑ k ∈ Finset.range n, Polynomial.monomial k ((gf2Poly b).coeff k) := by
    induction n with
    | zero => simp
    | succ n ih =>
      rw [List.range_succ, List.foldl_append, Finset.sum_range_succ, mul_add, ← ih (by omega)]
      cases hb : b.getLsbD n
      · simp [hb]
      · simp [hb, shifted n (by omega), Polynomial.X_pow_eq_monomial]
  have degree_b : (gf2Poly b).natDegree < 8 := Polynomial.ofFn_natDegree_lt (by decide) _
  calc gf2Poly (clmul a b) = _ := partialSum 8 le_rfl
    _ = gf2Poly a * gf2Poly b := by rw [← Polynomial.as_sum_range' _ 8 degree_b]

/-- One cancellation of `polyRem` adds the multiple of `m` that the coefficient of `x^(deg+k)` names. -/
theorem gf2Poly_cancel {m : BitVec 16} {k : Nat} (a : BitVec 16) (hk : (gf2Poly m).natDegree + k < 16) :
    gf2Poly (if a.getLsbD ((gf2Poly m).natDegree + k) then a ^^^ (m <<< k) else a) =
      gf2Poly a + Polynomial.C ((gf2Poly a).coeff ((gf2Poly m).natDegree + k)) * (gf2Poly m * Polynomial.X ^ k) := by
  have shifted : gf2Poly (m <<< k) = gf2Poly m * Polynomial.X ^ k := by
    refine gf2Poly_shiftLeft m k fun i hi => ?_
    simpa using Polynomial.coeff_eq_zero_of_natDegree_lt (p := gf2Poly m) (n := i) (by omega)
  cases ha : a.getLsbD ((gf2Poly m).natDegree + k)
  · simp [ha]
  · simp [ha, shifted]

/-- That sum has no coefficient left at `x^(deg+k)`: over GF(2) a monic `m` doubles it there. -/
theorem degree_cancel_lt {a m : Polynomial (ZMod 2)} {k : Nat} (hm : m.Monic)
    (ha : a.degree < ((m.natDegree + (k + 1) : Nat) : WithBot Nat)) :
    (a + Polynomial.C (a.coeff (m.natDegree + k)) * (m * Polynomial.X ^ k)).degree
      < ((m.natDegree + k : Nat) : WithBot Nat) := by
  rw [Polynomial.degree_lt_iff_coeff_zero] at ha ⊢
  intro i hi
  rw [Polynomial.coeff_add, Polynomial.coeff_C_mul, Polynomial.coeff_mul_X_pow', if_pos (show k ≤ i by omega)]
  obtain rfl | above := hi.eq_or_lt
  · simp [hm.coeff_natDegree, CharTwo.add_self_eq_zero]
  · simp [ha i (by omega), Polynomial.coeff_eq_zero_of_natDegree_lt (show m.natDegree < i - k by omega)]

/-- `polyRem` by a non-zero `m` with the degree of `m`, on an `a` whose degree is below the sum of the two counts, is the
remainder of the polynomials: each cancellation keeps the remainder and lowers the bound on the degree by one. -/
theorem gf2Poly_polyRem {m : BitVec 16} (hm : m ≠ 0#16) (k : Nat) (a : BitVec 16) (hk : (gf2Poly m).natDegree + k ≤ 16)
    (ha : (gf2Poly a).degree < (((gf2Poly m).natDegree + k : Nat) : WithBot Nat)) :
    gf2Poly (polyRem m (gf2Poly m).natDegree k a) = gf2Poly a %ₘ gf2Poly m := by
  have hm0 : gf2Poly m ≠ 0 := mt (gf2Poly_eq_zero_iff m).mp hm
  have monic : (gf2Poly m).Monic := monic_of_ne_zero_gf2 hm0
  induction k generalizing a with
  | zero =>
    refine ((Polynomial.modByMonic_eq_self_iff monic).mpr ?_).symm
    rwa [Polynomial.degree_eq_natDegree hm0]
  | succ k ih =>
    have cancel := gf2Poly_cancel a (show (gf2Poly m).natDegree + k < 16 by omega)
    rw [polyRem, ih _ (by omega) (cancel ▸ degree_cancel_lt monic ha), cancel]
    refine Polynomial.modByMonic_eq_of_dvd_sub monic ?_
    rw [add_sub_cancel_left]
    exact (dvd_mul_right _ _).mul_left _

end Sys2Proof
end

section
/-! The admissible values of `POLY` (00_scope.md R4). Trial division by the polynomials of degree 1 to 4 decides irreducibility
of a polynomial of degree 8, because one of two factors of positive degree has at most half the degree; and irreducible means that
no carry-less product of two bytes of positive degree gives it. The thirty values are then the outcome of the test itself. -/

namespace Sys2Proof

/-- A 9-bit value with bit 8 set stands for a polynomial of degree 8. -/
theorem gf2Poly_natDegree_eq_eight {p : BitVec 9} (h : p.getLsbD 8 = true) : (gf2Poly p).natDegree = 8 := by
  have below : (gf2Poly p).natDegree < 9 := Polynomial.ofFn_natDegree_lt (by decide) _
  have atLeast : 8 ≤ (gf2Poly p).natDegree := Polynomial.le_natDegree_of_ne_zero (by simp [h])
  omega

/-- One trial of `isIrreducible`: the remainder is zero exactly when the divisor divides. -/
theorem trial_eq_zero_iff_dvd (p : BitVec 9) (m : BitVec 16) (low : 2 ≤ m.toNat) (high : m.toNat < 32) :
    polyRem m (Nat.log2 m.toNat) (9 - Nat.log2 m.toNat) (p.setWidth 16) = 0 ↔ gf2Poly m ∣ gf2Poly p := by
  have hm : m ≠ 0#16 := by rintro rfl; simp at low
  have degree_m : Nat.log2 m.toNat < 5 := (Nat.log2_lt (by omega)).mpr high
  have degree_p : (gf2Poly p).degree < (9 : Nat) := Polynomial.ofFn_degree_lt _
  have remainder := gf2Poly_polyRem hm (9 - Nat.log2 m.toNat) (p.setWidth 16)
  rw [gf2Poly_setWidth _ (by decide), gf2Poly_natDegree, Nat.add_sub_cancel' (by omega)] at remainder
  rw [← Polynomial.modByMonic_eq_zero_iff_dvd (monic_of_ne_zero_gf2 (mt (gf2Poly_eq_zero_iff m).mp hm)),
    ← remainder (by decide) degree_p, gf2Poly_eq_zero_iff]
  rfl

/-- The test of R4 is irreducibility over GF(2) (assumption log 9). -/
theorem isIrreducible_iff_irreducible (p : BitVec 9) :
    isIrreducible p = true ↔ p.getLsbD 8 = true ∧ Irreducible (gf2Poly p) := by
  simp only [isIrreducible, Bool.and_eq_true, List.all_eq_true, List.mem_range, bne_iff_ne]
  refine and_congr_right fun bit8 => ?_
  have degree_p := gf2Poly_natDegree_eq_eight bit8
  have monic : (gf2Poly p).Monic := monic_of_natDegree_pos_gf2 (by omega)
  have ne_one : gf2Poly p ≠ 1 := fun h => by simp [h] at degree_p
  rw [monic.irreducible_iff_lt_natDegree_lt ne_one, degree_p]
  constructor
  · intro trials q _ hq
    obtain ⟨positive, atMost⟩ := Finset.mem_Ioc.mp hq
    obtain ⟨m, rfl⟩ := exists_gf2Poly_eq (w := 16) q (by omega)
    have low := (gf2Poly_natDegree_pos_iff m).mp positive
    have high : m.toNat < 32 := (Nat.log2_lt (k := 5) (by omega)).mp (by rw [← gf2Poly_natDegree]; omega)
    have trial := trials (m.toNat - 2) (by omega)
    rw [Nat.sub_add_cancel low, BitVec.ofNat_toNat, BitVec.setWidth_eq] at trial
    exact fun divides => trial ((trial_eq_zero_iff_dvd p m low high).mpr divides)
  · intro noDivisor j hj isZero
    have toNat_m : (BitVec.ofNat 16 (j + 2)).toNat = j + 2 := by simp; omega
    have low : 2 ≤ (BitVec.ofNat 16 (j + 2)).toNat := by omega
    have positive := (gf2Poly_natDegree_pos_iff _).mpr low
    have atMost : Nat.log2 (j + 2) < 5 := (Nat.log2_lt (by omega)).mpr (by omega)
    refine noDivisor (gf2Poly (BitVec.ofNat 16 (j + 2))) ?_ (Finset.mem_Ioc.mpr ⟨positive, ?_⟩) ?_
    · exact monic_of_natDegree_pos_gf2 positive
    · rw [gf2Poly_natDegree, toNat_m]; omega
    · rw [← trial_eq_zero_iff_dvd p _ low (by omega), toNat_m]
      exact isZero

/-- A carry-less product is `p` exactly when the polynomials multiply to that of `p`. -/
theorem clmul_eq_iff (a b : Byte) (p : BitVec 9) : clmul a b = p.setWidth 16 ↔ gf2Poly a * gf2Poly b = gf2Poly p := by
  rw [← gf2Poly_injective.eq_iff, gf2Poly_clmul, gf2Poly_setWidth _ (by decide)]

/-- For a polynomial of degree 8, irreducible means no carry-less product of two bytes of positive degree. -/
theorem irreducible_iff_clmul_ne {p : BitVec 9} (bit8 : p.getLsbD 8 = true) :
    Irreducible (gf2Poly p) ↔ ∀ a b : Byte, 2 ≤ a.toNat → 2 ≤ b.toNat → clmul a b ≠ p.setWidth 16 := by
  have degree_p := gf2Poly_natDegree_eq_eight bit8
  have monic : (gf2Poly p).Monic := monic_of_natDegree_pos_gf2 (by omega)
  have ne_one : gf2Poly p ≠ 1 := fun h => by simp [h] at degree_p
  rw [monic.irreducible_iff_natDegree, and_iff_right ne_one]
  constructor
  · intro splits a b ha hb product
    rw [← gf2Poly_natDegree_pos_iff] at ha hb
    have oneIsConstant := splits (gf2Poly a) (gf2Poly b) (monic_of_natDegree_pos_gf2 ha) (monic_of_natDegree_pos_gf2 hb)
      ((clmul_eq_iff a b p).mp product)
    omega
  · intro noProduct f g hf hg product
    by_contra! positive
    have degrees : f.natDegree + g.natDegree = 8 := by rw [← hf.natDegree_mul hg, product, degree_p]
    obtain ⟨a, rfl⟩ := exists_gf2Poly_eq (w := 8) f (by omega)
    obtain ⟨b, rfl⟩ := exists_gf2Poly_eq (w := 8) g (by omega)
    exact noProduct a b ((gf2Poly_natDegree_pos_iff a).mp (by omega)) ((gf2Poly_natDegree_pos_iff b).mp (by omega))
      ((clmul_eq_iff a b p).mpr product)

/-- The values of R4's list, in its order. -/
def admissiblePolynomials : List (BitVec 9) :=
  [0x11B, 0x11D, 0x12B, 0x12D, 0x139, 0x13F, 0x14D, 0x15F, 0x163, 0x165, 0x169, 0x171, 0x177, 0x17B, 0x187,
    0x18B, 0x18D, 0x19F, 0x1A3, 0x1A9, 0x1B1, 0x1BD, 0x1C3, 0x1CF, 0x1D7, 0x1DD, 0x1E7, 0x1F3, 0x1F5, 0x1F9]

/-- The exhaustive trial division R4 names: all 512 values through the test. -/
theorem isIrreducible_iff_mem_admissiblePolynomials :
    ∀ p : BitVec 9, isIrreducible p = true ↔ p ∈ admissiblePolynomials := by
  decide +kernel

/-- Settles O24: trial division is irreducibility over GF(2), which is having no two factors among the bytes of
positive degree; and R4's list is the outcome of the test on all 512 values. -/
theorem admissiblePolynomialsAreTheThirtyIrreducibleOnes : Obligations.AdmissiblePolynomialsAreTheThirtyIrreducibleOnes := by
  unfold Obligations.AdmissiblePolynomialsAreTheThirtyIrreducibleOnes
  refine fun p => ⟨?_, isIrreducible_iff_mem_admissiblePolynomials p⟩
  rw [isIrreducible_iff_irreducible]
  exact and_congr_right irreducible_iff_clmul_ne

end Sys2Proof
end

section
/-! SUPPORT. The byte view of `H` (10_state.md R11): a word is the word of its four bytes, and a state byte is one of them. -/

namespace Sys2Proof.Machine

/-- A word is put together from its four bytes. -/
theorem wordOfBytes_fields (w : Word) : wordOfBytes (opField w) (aField w) (bField w) (lowField w) = w :=
  wordOfBytes_bytes w

/-- The state bytes of word `j`, most significant first. -/
theorem stateByte_of_word (h : Vector Word 8) (j : Nat) (hj : j < 8) :
    stateByte h ⟨4 * j, by omega⟩ = opField h[j] ∧ stateByte h ⟨4 * j + 1, by omega⟩ = aField h[j] ∧
    stateByte h ⟨4 * j + 2, by omega⟩ = bField h[j] ∧ stateByte h ⟨4 * j + 3, by omega⟩ = lowField h[j] := by
  have byte (r : Nat) (hr : r < 4) : stateByte h ⟨4 * j + r, by omega⟩ = h[j].extractLsb' (24 - 8 * r) 8 := by
    have word_index : (4 * j + r) / 4 = j := by omega
    have byte_index : (4 * j + r) % 4 = r := by omega
    simp only [stateByte, word_index, byte_index]
  exact ⟨byte 0 (by decide), byte 1 (by decide), byte 2 (by decide), byte 3 (by decide)⟩

/-- Every word of `H` is its four state bytes. -/
theorem word_eq_stateBytes (h : Vector Word 8) (j : Nat) (hj : j < 8) :
    wordOfBytes (stateByte h ⟨4 * j, by omega⟩) (stateByte h ⟨4 * j + 1, by omega⟩) (stateByte h ⟨4 * j + 2, by omega⟩)
      (stateByte h ⟨4 * j + 3, by omega⟩) = h[j] := by
  obtain ⟨byte0, byte1, byte2, byte3⟩ := stateByte_of_word h j hj
  rw [byte0, byte1, byte2, byte3, wordOfBytes_fields]

/-- The words are determined by their byte view. -/
@[simp] theorem wordsOfBytes_bytesOfWords (h : Vector Word 8) : wordsOfBytes (bytesOfWords h) = h := by
  ext1 j hj
  simp only [wordsOfBytes_getElem, bytesOfWords_getElem]
  exact word_eq_stateBytes h j hj

/-- Any 32 bytes are the byte view of the words they make up. -/
@[simp] theorem bytesOfWords_wordsOfBytes (v : Vector Byte 32) : bytesOfWords (wordsOfBytes v) = v := by
  ext1 i hi
  obtain ⟨j, r, hr, rfl⟩ : ∃ j r, r < 4 ∧ i = 4 * j + r := ⟨i / 4, i % 4, by omega, by omega⟩
  have hj : j < 8 := by omega
  have word : (wordsOfBytes v)[j] = wordOfBytes v[4 * j] v[4 * j + 1] v[4 * j + 2] v[4 * j + 3] :=
    wordsOfBytes_getElem v j hj
  obtain ⟨byte0, byte1, byte2, byte3⟩ := stateByte_of_word (wordsOfBytes v) j hj
  rw [bytesOfWords_getElem]
  obtain rfl | rfl | rfl | rfl : r = 0 ∨ r = 1 ∨ r = 2 ∨ r = 3 := by omega
  · exact byte0.trans (by rw [word, opField_wordOfBytes]; rfl)
  · rw [byte1, word, aField_wordOfBytes]
  · rw [byte2, word, bField_wordOfBytes]
  · rw [byte3, word, lowField_wordOfBytes]

/-- The state bytes after a write to them. -/
@[simp] theorem Accumulator.setS_s (a : Accumulator) (v : Vector Byte 32) : (a.setS v).s = v :=
  bytesOfWords_wordsOfBytes v

/-- Settles O28: each word is its four state bytes, so words and bytes determine each other. -/
theorem wordsAndByteViewAreTheSameStorage : Obligations.WordsAndByteViewAreTheSameStorage := by
  unfold Obligations.WordsAndByteViewAreTheSameStorage
  refine ⟨fun h i => ?_, fun h j => (word_eq_stateBytes h j.val j.isLt).symm, wordsOfBytes_bytesOfWords,
    bytesOfWords_wordsOfBytes⟩
  exact BitVec.setWidth_ushiftRight_eq_extractLsb.symm

end Sys2Proof.Machine
end

section
/-! The state-writing commands (10_state.md R10): every command that is none of WRITE, RESET and UNMARSHAL is a response. -/

namespace Sys2Proof.Machine

/-- What a command can be: an `OK` response and nothing else, or one of the three that write the context. -/
theorem exec_cases (i : Instr) (s : State) :
    (∃ v p, exec i s = .next (s.respond .ok v p)) ∨ (∃ n, i = .write n) ∨ i = .reset ∨ ∃ n, i = .unmarshal n := by
  cases i with
  | gfadd a b => exact .inl ⟨_, _, rfl⟩
  | gfmul a b => exact .inl ⟨_, _, rfl⟩
  | sum => exact .inl ⟨_, _, rfl⟩
  | size => exact .inl ⟨_, _, rfl⟩
  | blocksize => exact .inl ⟨_, _, rfl⟩
  | marshal => exact .inl ⟨_, _, rfl⟩
  | write n => exact .inr (.inl ⟨n, rfl⟩)
  | reset => exact .inr (.inr (.inl rfl))
  | unmarshal n => exact .inr (.inr (.inr ⟨n, rfl⟩))

/-- Settles O17: a command that only responds keeps the context. -/
theorem onlyWriteResetAndUnmarshalWriteTheContext : Obligations.OnlyWriteResetAndUnmarshalWriteTheContext := by
  unfold Obligations.OnlyWriteResetAndUnmarshalWriteTheContext
  intro i s t answers changed
  obtain ⟨v, p, responds⟩ | writes := exec_cases i s
  · rw [responds] at answers
    cases answers
    exact absurd (s.respond_acc .ok v p) changed
  · exact writes

end Sys2Proof.Machine
end

section
/-! SUPPORT. What one turn of WRITE's loop does to `NX` and to `H`. -/

namespace Sys2Proof.Machine

/-- A turn advances `NX` modulo the block length, also where `LEN` wraps, since 64 divides 2^64. -/
theorem Accumulator.ingest_nx (c : Config) (a : Accumulator) (b : Byte) : (a.ingest c b).nx = (a.nx + 1) % 64 := by
  have one : (1 : BitVec 64).toNat = 1 := rfl
  simp only [Accumulator.nx, Accumulator.ingest_len, BitVec.toNat_add, one]
  omega

/-- A turn writes `H` only where it completes the block, which it then folds. -/
theorem Accumulator.ingest_h (c : Config) (a : Accumulator) (b : Byte) :
    (a.ingest c b).h = if (a.nx + 1) % 64 = 0 then wordsOfBytes (fold c a.s (a.x.set a.nx b a.nx_lt)) else a.h := by
  have advanced := a.ingest_nx c b
  unfold Accumulator.ingest at advanced ⊢
  simp only at advanced ⊢
  split at advanced
  · next complete => rw [if_pos complete, if_pos (advanced.symm.trans complete)]; rfl
  · next part => rw [if_neg part, if_neg (fun h => part (advanced.trans h))]

end Sys2Proof.Machine
end

section
/-! The tail of `X` is unobservable (10_state.md R16). Everything a command reads of a context is its logical state: WRITE
overwrites `X[NX]` and folds only a buffer whose 64 bytes are then all valid, SUM and MARSHAL read `X` through PADBLOCK. So each
operation takes agreeing states to agreeing states. -/

namespace Sys2Proof.Machine

/-! ## Contexts with one logical state -/

/-- Two contexts have one logical state where they have the same `H` and `LEN` and their buffers agree below `NX`. -/
theorem Accumulator.logical_eq_iff (a a' : Accumulator) :
    a.logical = a'.logical ↔
      a.h = a'.h ∧ a.len = a'.len ∧ ∀ (j : Nat) (hj : j < 64), j < a.nx → a.x[j] = a'.x[j] := by
  have buffers (same_len : a.len = a'.len) :
      a.valid = a'.valid ↔ ∀ (j : Nat) (hj : j < 64), j < a.nx → a.x[j] = a'.x[j] := by
    have same_nx : a.nx = a'.nx := by simp only [Accumulator.nx, same_len]
    have below := a'.nx_lt
    simp only [List.ext_getElem_iff, Accumulator.valid_length, same_nx, true_and]
    simp only [Accumulator.valid, List.getElem_take, Vector.getElem_toList]
    exact ⟨fun same j _ hj => same j hj hj, fun same j hj _ => same j (by omega) hj⟩
  simp only [Accumulator.logical, Prod.mk.injEq]
  constructor
  · rintro ⟨same_h, same_valid, same_len⟩
    exact ⟨same_h, same_len, (buffers same_len).mp same_valid⟩
  · rintro ⟨same_h, same_len, same_x⟩
    exact ⟨same_h, (buffers same_len).mpr same_x, same_len⟩

section
variable {a a' : Accumulator}

theorem Accumulator.h_congr (same : a.logical = a'.logical) : a.h = a'.h :=
  congrArg Prod.fst same

theorem Accumulator.s_congr (same : a.logical = a'.logical) : a.s = a'.s :=
  congrArg bytesOfWords (Accumulator.h_congr same)

theorem Accumulator.len_congr (same : a.logical = a'.logical) : a.len = a'.len :=
  congrArg (fun l => l.2.2) same

theorem Accumulator.nx_congr (same : a.logical = a'.logical) : a.nx = a'.nx :=
  congrArg (fun len => len.toNat % 64) (Accumulator.len_congr same)

/-- PADBLOCK reads only the valid bytes. -/
theorem Accumulator.padblock_congr (same : a.logical = a'.logical) : padblock a.x a.nx = padblock a'.x a'.nx := by
  obtain ⟨-, -, same_x⟩ := (Accumulator.logical_eq_iff a a').mp same
  ext1 j hj
  simp only [padblock_getElem, ← Accumulator.nx_congr same]
  exact ite_congr rfl (same_x j hj) fun _ => rfl

theorem Accumulator.digest_congr (c : Config) (same : a.logical = a'.logical) : a.digest c = a'.digest c := by
  rw [Accumulator.digest, Accumulator.padblock_congr same, Accumulator.s_congr same, Accumulator.nx_congr same]
  rfl

theorem Accumulator.marshal_congr (same : a.logical = a'.logical) : a.marshal = a'.marshal := by
  rw [Accumulator.marshal, Accumulator.padblock_congr same, Accumulator.h_congr same, Accumulator.len_congr same]
  rfl

/-! ## What WRITE and RESET leave -/

/-- RESET leaves the fresh logical state, whatever the buffer holds. -/
@[simp] theorem Accumulator.clear_logical (a : Accumulator) : a.clear.logical = (Vector.replicate 8 0, [], 0) := rfl

theorem Accumulator.setS_congr (v : Vector Byte 32) (same : a.logical = a'.logical) :
    (a.setS v).logical = (a'.setS v).logical :=
  congrArg (fun l => (wordsOfBytes v, l.2)) same

theorem Accumulator.seedFirst_congr (c : Config) (d : List Byte) (same : a.logical = a'.logical) :
    (a.seedFirst c d).logical = (a'.seedFirst c d).logical := by
  cases d with
  | nil => exact same
  | cons b d =>
    have same_fresh : a.isFresh = a'.isFresh := congrArg (· == 0) (Accumulator.len_congr same)
    simp only [Accumulator.seedFirst, same_fresh]
    cases a'.isFresh with
    | true => exact Accumulator.setS_congr (seed c b) same
    | false => exact same

/-- One turn of WRITE's loop: the byte it stores extends the bytes on which the buffers agree by one, and where these are then
all 64 the two folded blocks are equal. -/
theorem Accumulator.ingest_congr (c : Config) (b : Byte) (same : a.logical = a'.logical) :
    (a.ingest c b).logical = (a'.ingest c b).logical := by
  obtain ⟨same_h, same_len, same_x⟩ := (Accumulator.logical_eq_iff a a').mp same
  have same_nx := Accumulator.nx_congr same
  have stored (j : Nat) (hj : j < 64) (le : j ≤ a.nx) :
      (a.x.set a.nx b a.nx_lt)[j] = (a'.x.set a'.nx b a'.nx_lt)[j] := by
    simp only [Vector.getElem_set, ← same_nx]
    exact ite_congr rfl (fun _ => rfl) fun ne => same_x j hj (by omega)
  refine (Accumulator.logical_eq_iff _ _).mpr ⟨?_, ?_, ?_⟩
  · simp only [Accumulator.ingest_h, ← same_nx, same_h, Accumulator.s_congr same]
    refine ite_congr rfl (fun complete => ?_) fun _ => rfl
    have full : a.nx = 63 := by have := a.nx_lt; omega
    have same_block : a.x.set a.nx b a.nx_lt = a'.x.set a.nx b a.nx_lt := by
      ext1 j hj
      simpa only [← same_nx] using stored j hj (by omega)
    rw [same_block]
  · rw [Accumulator.ingest_len, Accumulator.ingest_len, same_len]
  · intro j hj lt
    rw [Accumulator.ingest_nx] at lt
    simp only [Accumulator.ingest_x]
    exact stored j hj (by omega)

theorem Accumulator.write_congr (c : Config) (d : List Byte) (same : a.logical = a'.logical) :
    (a.write c d).logical = (a'.write c d).logical := by
  have loop (e : List Byte) : ∀ {u u' : Accumulator}, u.logical = u'.logical →
      (e.foldl (Accumulator.ingest c) u).logical = (e.foldl (Accumulator.ingest c) u').logical := by
    induction e with
    | nil => exact id
    | cons b e ih => exact fun same_u => ih (Accumulator.ingest_congr c b same_u)
  exact loop d (Accumulator.seedFirst_congr c d same)

end

/-! ## States that agree -/

section
variable {s s' : State}

theorem State.agree_refl (s : State) : s.agree s := ⟨rfl, rfl, rfl, rfl, rfl⟩

theorem State.agree.respond (agree : s.agree s') (st : Status) (v : Nat) (p : List Byte) :
    (s.respond st v p).agree (s'.respond st v p) := by
  obtain ⟨same_acc, same_input, same_output, -, same_reset⟩ := agree
  exact ⟨same_acc, same_input, congrArg (· ++ (responseWord st v ++ p)) same_output, rfl, same_reset⟩

theorem State.agree.raise (agree : s.agree s') (e : Status) : (s.raise e).agree (s'.raise e) :=
  agree.respond e 0 []

theorem State.agree.await (agree : s.agree s') (i : Instr) : (s.await i).agree (s'.await i) := by
  obtain ⟨same_acc, same_input, same_output, -, same_reset⟩ := agree
  exact ⟨same_acc, same_input, same_output, rfl, same_reset⟩

theorem State.agree.withInput (agree : s.agree s') (rest : List Byte) : (s.withInput rest).agree (s'.withInput rest) := by
  obtain ⟨same_acc, -, same_output, same_pending, same_reset⟩ := agree
  exact ⟨same_acc, rfl, same_output, same_pending, same_reset⟩

theorem State.agree.withAcc (agree : s.agree s') {a a' : Accumulator} (same : a.logical = a'.logical) :
    (s.withAcc a).agree (s'.withAcc a') := by
  obtain ⟨-, same_input, same_output, same_pending, same_reset⟩ := agree
  exact ⟨same, same_input, same_output, same_pending, same_reset⟩

/-- Waiting for a payload depends on the command stream alone, so what is done with a whole payload decides. -/
theorem State.agree.withPayload (agree : s.agree s') (i : Instr) {k : List Byte → State → State}
    (keeps : ∀ d {u u' : State}, u.agree u' → (k d u).agree (k d u')) :
    (s.withPayload i k).agree (s'.withPayload i k) := by
  have ⟨_, same_input, _⟩ := agree
  obtain ⟨short, waits⟩ | ⟨d, rest, input, len, runs⟩ := withPayload_cases s i k
  · rw [waits, withPayload_of_short k (same_input ▸ short)]
    exact agree.await i
  · rw [runs, withPayload_of_append k (same_input ▸ input) len]
    exact keeps d (agree.withInput rest)

/-- UNMARSHAL's outcome depends on the payload alone. -/
theorem State.agree.loadBlob (agree : s.agree s') (b : List Byte) : (s.loadBlob b).agree (s'.loadBlob b) := by
  unfold State.loadBlob
  split
  · next e _ => exact agree.raise e
  · exact (agree.withAcc rfl).respond .ok 0 []

/-! ## Commands and steps -/

/-- Every command takes agreeing states to agreeing states. -/
theorem State.agree.exec (agree : s.agree s') (i : Instr) :
    ∃ t t', exec i s = .next t ∧ exec i s' = .next t' ∧ t.agree t' := by
  have ⟨same, _⟩ := agree
  cases i with
  | gfadd a b => exact ⟨_, _, rfl, rfl, agree.respond ..⟩
  | gfmul a b => exact ⟨_, _, rfl, rfl, agree.respond ..⟩
  | size => exact ⟨_, _, rfl, rfl, agree.respond ..⟩
  | blocksize => exact ⟨_, _, rfl, rfl, agree.respond ..⟩
  | sum =>
    refine ⟨_, _, rfl, rfl, ?_⟩
    rw [State.answerDigest, State.answerDigest, Accumulator.digest_congr Config.chip same]
    exact agree.respond ..
  | marshal =>
    refine ⟨_, _, rfl, rfl, ?_⟩
    rw [Accumulator.marshal_congr same]
    exact agree.respond ..
  | reset =>
    have cleared := s.acc.clear_logical.trans s'.acc.clear_logical.symm
    exact ⟨_, _, rfl, rfl, (agree.withAcc cleared).respond ..⟩
  | write n =>
    refine ⟨_, _, rfl, rfl, agree.withPayload (.write n) fun d u u' agree_u => ?_⟩
    have ⟨same_u, _⟩ := agree_u
    exact (agree_u.withAcc (Accumulator.write_congr Config.chip d same_u)).respond ..
  | unmarshal n => exact ⟨_, _, rfl, rfl, agree.withPayload (.unmarshal n) fun b _ _ agree_u => agree_u.loadBlob b⟩

end

/-- Settles O18: a step chooses what it does by the reset line, the decoder and the command stream, on which agreeing states
are equal, and each choice keeps the agreement. -/
theorem tailOfTheBufferIsUnobservable : Obligations.TailOfTheBufferIsUnobservable := by
  unfold Obligations.TailOfTheBufferIsUnobservable
  intro s s' agree
  have ⟨_, same_input, _, same_pending, same_reset⟩ := agree
  unfold step
  rw [← same_input, ← same_pending, ← same_reset]
  split
  · exact ⟨_, _, rfl, rfl, State.agree_refl State.reset⟩
  · split
    · next i _ => exact agree.exec i
    · split
      · next i rest _ => exact (agree.withInput rest).exec i
      · next rest _ => exact ⟨_, _, rfl, rfl, (agree.withInput rest).raise .illegalCommand⟩
      · exact ⟨_, _, rfl, rfl, agree⟩

end Sys2Proof.Machine
end

section
/-! SUPPORT. The encoding table of 30_encoding.md R30 and R33 as one relation between a word and a command, and that the decoder
and the encoder are each this relation. So they agree (both directions of the encoding statements), and a word is legal exactly
where its opcode is one of the nine and the bits its format leaves unused are zero. -/

namespace Sys2Proof

open Sys2Proof.Laws (opcode opField_encodeZ opField_encodeF opField_encodeL)

/-- The bits of `w` below the opcode are the operands of the command: its fields, and zero where the format has none (R30). -/
def Instr.operandsIn (w : Word) : Instr → Prop
  | .gfadd a b => aField w = a ∧ bField w = b ∧ lowField w = 0
  | .gfmul a b => aField w = a ∧ bField w = b ∧ lowField w = 0
  | .write n => (argField w).toNat = n
  | .sum => argField w = 0
  | .reset => argField w = 0
  | .size => argField w = 0
  | .blocksize => argField w = 0
  | .marshal => argField w = 0
  | .unmarshal n => (argField w).toNat = n

/-! ## A word and its fields -/

/-- Opcode and argument make up the word. -/
theorem word_eq_of_op_arg {w v : Word} (op : opField w = opField v) (arg : argField w = argField v) : w = v := by
  refine BitVec.eq_of_getLsbD_eq fun k hk => ?_
  by_cases low : k < 24
  · have bit := congrArg (·.getLsbD k) arg
    simpa only [argField, BitVec.getLsbD_extractLsb', low, decide_true, Bool.true_and, Nat.zero_add] using bit
  · have bit := congrArg (·.getLsbD (k - 24)) op
    have in_op : k - 24 < 8 := by omega
    have position : 24 + (k - 24) = k := by omega
    simpa only [opField, BitVec.getLsbD_extractLsb', in_op, decide_true, Bool.true_and, position] using bit

/-- So do the four bytes. -/
theorem word_eq_of_bytes {w v : Word} (op : opField w = opField v) (a : aField w = aField v) (b : bField w = bField v)
    (low : lowField w = lowField v) : w = v := by
  rw [← Machine.wordOfBytes_fields w, op, a, b, low, Machine.wordOfBytes_fields]

/-- A payload length the command word can name is the number in its length field. -/
theorem argField_encodeL_toNat {n : Nat} (fits : n ≤ lmax) (op : Byte) : (argField (encodeL op n)).toNat = n := by
  rw [argField_encodeL, BitVec.toNat_ofNat]
  unfold lmax at fits
  omega

theorem argField_le_lmax (w : Word) : (argField w).toNat ≤ lmax := by
  have := (argField w).isLt
  unfold lmax
  omega

/-! ## The encoder -/

/-- A format-Z word is the word with that opcode and a zero argument. -/
theorem encodeZ_eq_iff (op : Byte) (w : Word) : encodeZ op = w ↔ opField w = op ∧ argField w = 0 := by
  constructor
  · rintro rfl
    exact ⟨opField_encodeZ op, argField_encodeZ op⟩
  · rintro ⟨rfl, arg⟩
    exact word_eq_of_op_arg (opField_encodeZ _) ((argField_encodeZ _).trans arg.symm)

/-- A format-F word is the word with those three bytes and a zero byte below them. -/
theorem encodeF_eq_iff (op a b : Byte) (w : Word) :
    encodeF op a b = w ↔ opField w = op ∧ aField w = a ∧ bField w = b ∧ lowField w = 0 := by
  rw [encodeF_eq]
  constructor
  · rintro rfl
    exact ⟨opField_wordOfBytes .., aField_wordOfBytes .., bField_wordOfBytes .., lowField_wordOfBytes ..⟩
  · rintro ⟨rfl, rfl, rfl, low⟩
    exact word_eq_of_bytes (opField_wordOfBytes ..) (aField_wordOfBytes ..) (bField_wordOfBytes ..)
      ((lowField_wordOfBytes ..).trans low.symm)

/-- A format-L word whose length fits the length field is the word with that opcode and that number. -/
theorem encodeL_eq_iff (op : Byte) (n : Nat) (w : Word) :
    n ≤ lmax ∧ encodeL op n = w ↔ opField w = op ∧ (argField w).toNat = n := by
  constructor
  · rintro ⟨fits, rfl⟩
    exact ⟨opField_encodeL op n, argField_encodeL_toNat fits op⟩
  · rintro ⟨rfl, rfl⟩
    refine ⟨argField_le_lmax w, word_eq_of_op_arg (opField_encodeL ..) ?_⟩
    rw [argField_encodeL, BitVec.ofNat_toNat, BitVec.setWidth_eq]

/-- The words the encoder writes for well-formed commands: the encoding table, read from command to word. -/
theorem encodeWord_eq_iff (i : Instr) (w : Word) :
    i.wellFormed = true ∧ encodeWord i = w ↔ opField w = opcode i ∧ i.operandsIn w := by
  have operand_free (j : Instr) (no_payload : j.payloadLength = 0) : j.wellFormed = true := by
    simp [Instr.wellFormed, no_payload]
  cases i with
  | gfadd a b => exact (and_iff_right (operand_free _ rfl)).trans (encodeF_eq_iff _ a b w)
  | gfmul a b => exact (and_iff_right (operand_free _ rfl)).trans (encodeF_eq_iff _ a b w)
  | write n => exact (and_congr_left' decide_eq_true_iff).trans (encodeL_eq_iff _ n w)
  | sum => exact (and_iff_right (operand_free _ rfl)).trans (encodeZ_eq_iff _ w)
  | reset => exact (and_iff_right (operand_free _ rfl)).trans (encodeZ_eq_iff _ w)
  | size => exact (and_iff_right (operand_free _ rfl)).trans (encodeZ_eq_iff _ w)
  | blocksize => exact (and_iff_right (operand_free _ rfl)).trans (encodeZ_eq_iff _ w)
  | marshal => exact (and_iff_right (operand_free _ rfl)).trans (encodeZ_eq_iff _ w)
  | unmarshal n => exact (and_congr_left' decide_eq_true_iff).trans (encodeL_eq_iff _ n w)

/-! ## The decoder -/

theorem decodeZ_eq_ok_iff (w : Word) (i j : Instr) : decodeZ w j = .ok i ↔ argField w = 0 ∧ j = i := by
  unfold decodeZ
  split
  · next arg => simp [arg]
  · next arg => exact ⟨nofun, fun ⟨arg_zero, _⟩ => absurd arg_zero arg⟩

theorem decodeF_eq_ok_iff (w : Word) (i : Instr) (f : Byte → Byte → Instr) :
    decodeF w f = .ok i ↔ lowField w = 0 ∧ f (aField w) (bField w) = i := by
  unfold decodeF
  split
  · next low => simp [low]
  · next low => exact ⟨nofun, fun ⟨low_zero, _⟩ => absurd low_zero low⟩

theorem decodeL_eq_ok_iff (w : Word) (i : Instr) (f : Nat → Instr) : decodeL w f = .ok i ↔ f (argField w).toNat = i := by
  simp [decodeL]

/-- The words the decoder accepts: the encoding table, read from word to command. -/
theorem decodeWord_eq_ok_iff (w : Word) (i : Instr) :
    decodeWord w = .ok i ↔ opField w = opcode i ∧ i.operandsIn w := by
  constructor
  · intro rows
    unfold decodeWord at rows
    obtain ⟨op, row⟩ | ⟨-, rows⟩ := ite_eq_iff.mp rows
    · obtain ⟨low, rfl⟩ := (decodeF_eq_ok_iff ..).mp row; exact ⟨op, rfl, rfl, low⟩
    obtain ⟨op, row⟩ | ⟨-, rows⟩ := ite_eq_iff.mp rows
    · obtain ⟨low, rfl⟩ := (decodeF_eq_ok_iff ..).mp row; exact ⟨op, rfl, rfl, low⟩
    obtain ⟨op, row⟩ | ⟨-, rows⟩ := ite_eq_iff.mp rows
    · obtain rfl := (decodeL_eq_ok_iff ..).mp row; exact ⟨op, rfl⟩
    obtain ⟨op, row⟩ | ⟨-, rows⟩ := ite_eq_iff.mp rows
    · obtain ⟨arg, rfl⟩ := (decodeZ_eq_ok_iff ..).mp row; exact ⟨op, arg⟩
    obtain ⟨op, row⟩ | ⟨-, rows⟩ := ite_eq_iff.mp rows
    · obtain ⟨arg, rfl⟩ := (decodeZ_eq_ok_iff ..).mp row; exact ⟨op, arg⟩
    obtain ⟨op, row⟩ | ⟨-, rows⟩ := ite_eq_iff.mp rows
    · obtain ⟨arg, rfl⟩ := (decodeZ_eq_ok_iff ..).mp row; exact ⟨op, arg⟩
    obtain ⟨op, row⟩ | ⟨-, rows⟩ := ite_eq_iff.mp rows
    · obtain ⟨arg, rfl⟩ := (decodeZ_eq_ok_iff ..).mp row; exact ⟨op, arg⟩
    obtain ⟨op, row⟩ | ⟨-, rows⟩ := ite_eq_iff.mp rows
    · obtain ⟨arg, rfl⟩ := (decodeZ_eq_ok_iff ..).mp row; exact ⟨op, arg⟩
    obtain ⟨op, row⟩ | ⟨-, rows⟩ := ite_eq_iff.mp rows
    · obtain rfl := (decodeL_eq_ok_iff ..).mp row; exact ⟨op, rfl⟩
    cases rows
  · rintro ⟨op, operands⟩
    cases i with
    | gfadd a b => obtain ⟨rfl, rfl, low⟩ := operands; rw [decodeWord, op]; exact if_pos low
    | gfmul a b => obtain ⟨rfl, rfl, low⟩ := operands; rw [decodeWord, op]; exact if_pos low
    | write n => obtain rfl := operands; rw [decodeWord, op]; rfl
    | sum => rw [decodeWord, op]; exact if_pos operands
    | reset => rw [decodeWord, op]; exact if_pos operands
    | size => rw [decodeWord, op]; exact if_pos operands
    | blocksize => rw [decodeWord, op]; exact if_pos operands
    | marshal => rw [decodeWord, op]; exact if_pos operands
    | unmarshal n => obtain rfl := operands; rw [decodeWord, op]; rfl

/-- Decoder and encoder are the same table. -/
theorem decodeWord_eq_ok_iff_encodeWord (w : Word) (i : Instr) :
    decodeWord w = .ok i ↔ i.wellFormed = true ∧ encodeWord i = w :=
  (decodeWord_eq_ok_iff w i).trans (encodeWord_eq_iff i w).symm

/-! ## The decoder at the head of the command stream -/

/-- The decoder waits exactly on fewer than four bytes. -/
theorem decode_eq_incomplete_iff (bs : List Byte) : decode bs = .incomplete ↔ bs.length < 4 := by
  match bs with
  | [] | [_] | [_, _] | [_, _, _] => simp [decode]
  | b0 :: b1 :: b2 :: b3 :: rest =>
    simp only [decode, List.length_cons]
    split <;> simp

/-- The four bytes of a word, as they are sent. -/
theorem beBytes_word (w : Word) : beBytes 4 w.toNat = [opField w, aField w, bField w, lowField w] := rfl

theorem beBytes_wordOfBytes (b0 b1 b2 b3 : Byte) : beBytes 4 (wordOfBytes b0 b1 b2 b3).toNat = [b0, b1, b2, b3] := by
  rw [beBytes_word, opField_wordOfBytes, aField_wordOfBytes, bField_wordOfBytes, lowField_wordOfBytes]

/-- The decoder reads a command exactly where its encoding heads the stream. -/
theorem decode_eq_command_iff (bs rest : List Byte) (i : Instr) :
    decode bs = .command i rest ↔ i.wellFormed = true ∧ bs = encode i ++ rest := by
  constructor
  · intro reads
    match bs with
    | [] | [_] | [_, _] | [_, _, _] => simp [decode] at reads
    | b0 :: b1 :: b2 :: b3 :: rest' =>
      simp only [decode] at reads
      split at reads
      · next j accepted =>
        cases reads
        obtain ⟨wf, word⟩ := (decodeWord_eq_ok_iff_encodeWord _ i).mp accepted
        refine ⟨wf, ?_⟩
        rw [encode, word, beBytes_wordOfBytes]
        rfl
      · cases reads
  · rintro ⟨wf, rfl⟩
    have decodes : decodeWord (encodeWord i) = .ok i := (decodeWord_eq_ok_iff_encodeWord _ i).mpr ⟨wf, rfl⟩
    rw [encode, decode_word, decodes]

end Sys2Proof
end

section
/-! The encoding statements (30_encoding.md R30, R33, R35): decode and encode agree, and which words are legal. The masks and
the slices of the statements are read as the fields of the word. -/

namespace Sys2Proof

/-- Settles O1: decoder and encoder are one table. -/
theorem decodingTheEncodingGivesTheCommand : Obligations.DecodingTheEncodingGivesTheCommand := by
  unfold Obligations.DecodingTheEncodingGivesTheCommand
  intro i rest wf
  exact (decode_eq_command_iff _ rest i).mpr ⟨wf, rfl⟩

/-- Settles O2, by the same table read in the other direction. -/
theorem everyLegalWordIsTheEncodingOfItsCommand : Obligations.EveryLegalWordIsTheEncodingOfItsCommand := by
  unfold Obligations.EveryLegalWordIsTheEncodingOfItsCommand
  intro w i
  exact (decodeWord_eq_ok_iff_encodeWord w i).mp

/-! ## Legal words by their fields -/

/-- The opcode is of format F, Z or L, and the bits that format leaves unused are zero. -/
def legalFields (w : Word) : Prop :=
  (opField w ∈ ([0x01, 0x02] : List Byte) ∧ lowField w = 0) ∨
  (opField w ∈ ([0x11, 0x12, 0x13, 0x14, 0x20] : List Byte) ∧ argField w = 0) ∨
  opField w ∈ ([0x10, 0x21] : List Byte)

/-- Which words are legal: those with an opcode of the table whose unused bits are zero. -/
theorem legal_iff_legalFields (w : Word) : (∃ i, decodeWord w = .ok i) ↔ legalFields w := by
  simp only [decodeWord_eq_ok_iff, legalFields, List.mem_cons, List.not_mem_nil, or_false]
  constructor
  · rintro ⟨i, op, operands⟩
    cases i with
    | gfadd a b => obtain ⟨-, -, low⟩ := operands; exact .inl ⟨.inl op, low⟩
    | gfmul a b => obtain ⟨-, -, low⟩ := operands; exact .inl ⟨.inr op, low⟩
    | sum => exact .inr (.inl ⟨.inl op, operands⟩)
    | reset => exact .inr (.inl ⟨.inr (.inl op), operands⟩)
    | size => exact .inr (.inl ⟨.inr (.inr (.inl op)), operands⟩)
    | blocksize => exact .inr (.inl ⟨.inr (.inr (.inr (.inl op))), operands⟩)
    | marshal => exact .inr (.inl ⟨.inr (.inr (.inr (.inr op))), operands⟩)
    | write n => exact .inr (.inr (.inl op))
    | unmarshal n => exact .inr (.inr (.inr op))
  · rintro (⟨op | op, low⟩ | ⟨op | op | op | op | op, arg⟩ | op | op)
    · exact ⟨.gfadd _ _, op, rfl, rfl, low⟩
    · exact ⟨.gfmul _ _, op, rfl, rfl, low⟩
    · exact ⟨.sum, op, arg⟩
    · exact ⟨.reset, op, arg⟩
    · exact ⟨.size, op, arg⟩
    · exact ⟨.blocksize, op, arg⟩
    · exact ⟨.marshal, op, arg⟩
    · exact ⟨.write _, op, rfl⟩
    · exact ⟨.unmarshal _, op, rfl⟩

/-! ## Masks and slices as fields -/

theorem opField_and (w m : Word) : opField (w &&& m) = opField w &&& opField m := BitVec.extractLsb'_and
theorem argField_and (w m : Word) : argField (w &&& m) = argField w &&& argField m := BitVec.extractLsb'_and

/-- A masked word against an opcode over zeros, field by field. -/
theorem masked_eq_encodeZ_iff (w m : Word) (op : Byte) :
    w &&& m = encodeZ op ↔ opField w &&& opField m = op ∧ argField w &&& argField m = 0 := by
  rw [eq_comm, encodeZ_eq_iff, opField_and, argField_and]

/-- The low byte of the argument. -/
theorem argField_and_255_eq_zero_iff (w : Word) : argField w &&& 0xFF = 0 ↔ lowField w = 0 := by
  have byte : (argField w).toNat &&& 255 = (argField w).toNat % 256 := Nat.and_two_pow_sub_one_eq_mod _ 8
  rw [← BitVec.toNat_inj, ← BitVec.toNat_inj (x := lowField w)]
  show (argField w).toNat &&& 255 = 0 ↔ (lowField w).toNat = 0
  rw [byte]
  simp only [argField, lowField, BitVec.extractLsb'_toNat, Nat.shiftRight_zero]
  omega

/-- The mask of format F compares the opcode and the low byte. -/
theorem maskF_match_iff (w : Word) (op : Byte) : w &&& 0xFF0000FF = encodeZ op ↔ opField w = op ∧ lowField w = 0 := by
  rw [masked_eq_encodeZ_iff, ← argField_and_255_eq_zero_iff]
  exact and_congr_left' (by rw [show opField 0xFF0000FF = BitVec.allOnes 8 from rfl, BitVec.and_allOnes])

/-- The mask of format Z compares the whole word. -/
theorem maskZ_match_iff (w : Word) (op : Byte) : w &&& 0xFFFFFFFF = encodeZ op ↔ opField w = op ∧ argField w = 0 := by
  rw [show (0xFFFFFFFF : Word) = BitVec.allOnes 32 from rfl, BitVec.and_allOnes, eq_comm, encodeZ_eq_iff]

/-- The mask of format L compares the opcode. -/
theorem maskL_match_iff (w : Word) (op : Byte) : w &&& 0xFF000000 = encodeZ op ↔ opField w = op := by
  rw [masked_eq_encodeZ_iff, show opField 0xFF000000 = BitVec.allOnes 8 from rfl, BitVec.and_allOnes]
  exact and_iff_left (BitVec.and_zero)

/-- The low 24 bits of a word are its argument. -/
theorem slice_arg_ne_zero_iff (w : Word) : w &&& 0x00FFFFFF ≠ 0 ↔ argField w ≠ 0 := by
  rw [show (0 : Word) = encodeZ 0 from rfl, Ne, masked_eq_encodeZ_iff, show argField 0x00FFFFFF = BitVec.allOnes 24 from rfl,
    BitVec.and_allOnes]
  exact not_congr (and_iff_right BitVec.and_zero)

/-- The low 8 bits of a word are its low byte. -/
theorem slice_low_ne_zero_iff (w : Word) : w &&& 0x000000FF ≠ 0 ↔ lowField w ≠ 0 := by
  rw [show (0 : Word) = encodeZ 0 from rfl, Ne, masked_eq_encodeZ_iff, Ne, ← argField_and_255_eq_zero_iff]
  exact not_congr (and_iff_right BitVec.and_zero)

/-- The top 8 bits of a word are its opcode. -/
theorem slice_op_mem_iff (w : Word) (ops : List Byte) : w >>> 24 ∈ ops.map (BitVec.setWidth 32) ↔ opField w ∈ ops := by
  have top : w >>> 24 = (opField w).setWidth 32 := by
    refine BitVec.eq_of_toNat_eq ?_
    have := w.isLt
    simp only [opField, BitVec.toNat_ushiftRight, BitVec.toNat_setWidth, BitVec.extractLsb'_toNat, Nat.shiftRight_eq_div_pow]
    omega
  have injective : Function.Injective (BitVec.setWidth 32 : Byte → Word) := fun x y same => by
    have := congrArg (BitVec.setWidth 8) same
    simpa using this
  rw [top, List.mem_map_of_injective injective]

/-- The nine opcodes are those of the three formats. -/
theorem mem_opcodes_iff (op : Byte) :
    op ∈ ([0x01, 0x02, 0x10, 0x11, 0x12, 0x13, 0x14, 0x20, 0x21] : List Byte) ↔
      op ∈ ([0x01, 0x02] : List Byte) ∨ op ∈ ([0x11, 0x12, 0x13, 0x14, 0x20] : List Byte) ∨ op ∈ ([0x10, 0x21] : List Byte) := by
  simp only [List.mem_cons, List.not_mem_nil, or_false]
  exact iff_of_eq (by ac_rfl)

/-- An opcode belongs to one format. -/
theorem formats_disjoint :
    (∀ op ∈ ([0x01, 0x02] : List Byte),
      op ∉ ([0x11, 0x12, 0x13, 0x14, 0x20] : List Byte) ∧ op ∉ ([0x10, 0x21] : List Byte)) ∧
    ∀ op ∈ ([0x11, 0x12, 0x13, 0x14, 0x20] : List Byte), op ∉ ([0x10, 0x21] : List Byte) := by
  decide

/-- Settles O3: a word is illegal where its opcode is none of the nine, or where a bit its format leaves unused is set. -/
theorem illegalWordsAreThoseOfTheThreeCases : Obligations.IllegalWordsAreThoseOfTheThreeCases := by
  unfold Obligations.IllegalWordsAreThoseOfTheThreeCases
  intro w
  have illegal : (∃ why, decodeWord w = .error why) ↔ ¬ legalFields w := by
    rw [← legal_iff_legalFields]
    cases decodeWord w <;> simp
  have opcodes := slice_op_mem_iff w [0x01, 0x02, 0x10, 0x11, 0x12, 0x13, 0x14, 0x20, 0x21]
  have formatZ := slice_op_mem_iff w [0x11, 0x12, 0x13, 0x14, 0x20]
  have formatF := slice_op_mem_iff w [0x01, 0x02]
  rw [illegal, slice_arg_ne_zero_iff, slice_low_ne_zero_iff]
  refine Iff.trans ?_ (or_congr (not_congr opcodes) (or_congr (and_congr_left' formatZ) (and_congr_left' formatF))).symm
  have nine := mem_opcodes_iff (opField w)
  have disjointF := formats_disjoint.1 (opField w)
  have disjointZ := formats_disjoint.2 (opField w)
  unfold legalFields
  grind

/-- The rows of the table: the mask of the format, and the opcode over zeros. -/
theorem opcodeRows_eq :
    Machine.opcodeRows =
      [(0xFF0000FF, encodeZ 0x01), (0xFF0000FF, encodeZ 0x02), (0xFF000000, encodeZ 0x10), (0xFFFFFFFF, encodeZ 0x11),
        (0xFFFFFFFF, encodeZ 0x12), (0xFFFFFFFF, encodeZ 0x13), (0xFFFFFFFF, encodeZ 0x14), (0xFFFFFFFF, encodeZ 0x20),
        (0xFF000000, encodeZ 0x21)] := rfl

/-- Matching a row is having its opcode and zero in the bits its format leaves unused. -/
theorem exists_row_iff (w : Word) : (∃ r ∈ Machine.opcodeRows, w &&& r.1 = r.2) ↔ legalFields w := by
  simp only [opcodeRows_eq, legalFields, List.mem_cons, List.not_mem_nil, or_false, or_and_right, exists_or, exists_eq_left,
    maskF_match_iff, maskZ_match_iff, maskL_match_iff]
  exact iff_of_eq (by ac_rfl)

/-- Every row of the table compares the whole opcode byte. -/
theorem opcodeRows_mask_opcode : ∀ r ∈ Machine.opcodeRows, opField r.1 = BitVec.allOnes 8 := by
  simp [Machine.opcodeRows, opField]

/-- The rows of the table have nine different opcodes. -/
theorem opcodeRows_opcode_nodup : (Machine.opcodeRows.map fun r => opField r.2).Nodup := by
  simp only [opcodeRows_eq, List.map_cons, List.map_nil, Laws.opField_encodeZ]
  decide

theorem opField_of_match {w : Word} {r : Word × Word} (mem : r ∈ Machine.opcodeRows) (matches_row : w &&& r.1 = r.2) :
    opField w = opField r.2 := by
  rw [← matches_row, opField_and, opcodeRows_mask_opcode r mem, BitVec.and_allOnes]

/-- Settles O4: matching a row is having its opcode and zero in the bits its format leaves unused. -/
theorem legalWordsMatchExactlyOneRowOfTheTable : Obligations.LegalWordsMatchExactlyOneRowOfTheTable := by
  unfold Obligations.LegalWordsMatchExactlyOneRowOfTheTable
  refine ⟨fun w => ?_, fun w r r' mem mem' row row' => ?_⟩
  · rw [legal_iff_legalFields, exists_row_iff]
  · have same_opcode := (opField_of_match mem row).symm.trans (opField_of_match mem' row')
    exact List.inj_on_of_nodup_map opcodeRows_opcode_nodup mem mem' same_opcode

/-! ## Words written out -/

/-- Settles O5, by running the decoder on each word. -/
theorem wordsWrittenFromTheSpecDecode : Obligations.WordsWrittenFromTheSpecDecode := by
  unfold Obligations.WordsWrittenFromTheSpecDecode
  decide

end Sys2Proof
end

section
/-! SUPPORT. What one step does, by what the decoder finds, and what every command does: it waits for its payload, or it takes
exactly that and ends in one response. -/

namespace Sys2Proof.Machine

/-! ## The step, case by case -/

theorem step_of_resetLine {s : State} (reset : s.resetLine = true) : step s = .next State.reset := by
  rw [step, if_pos reset]
  rfl

/-- A command in progress goes on. -/
theorem step_of_pending {s : State} {i : Instr} (reset : s.resetLine = false) (pending : s.pending = some i) :
    step s = exec i s := by
  simp only [step, reset, pending, Bool.false_eq_true, if_false]

/-- An idle decoder runs the command it reads. -/
theorem step_of_command {s : State} {i : Instr} {rest : List Byte} (idle : s.idle) (reads : decode s.input = .command i rest) :
    step s = exec i (s.withInput rest) := by
  obtain ⟨pending, reset⟩ := idle
  simp only [step, reset, pending, reads, Bool.false_eq_true, if_false]

/-- An idle decoder answers an illegal word. -/
theorem step_of_illegal {s : State} {why : Reject} {rest : List Byte} (idle : s.idle)
    (reads : decode s.input = .illegal why rest) : step s = .next (s.illegalWord rest) := by
  obtain ⟨pending, reset⟩ := idle
  simp only [step, reset, pending, reads, Bool.false_eq_true, if_false]

/-- An idle decoder waits for a whole word. -/
theorem step_of_incomplete {s : State} (idle : s.idle) (reads : decode s.input = .incomplete) : step s = .next s := by
  obtain ⟨pending, reset⟩ := idle
  simp only [step, reset, pending, reads, Bool.false_eq_true, if_false]

/-- The next command where its encoding heads the command stream. -/
theorem step_of_encode {s : State} {i : Instr} {rest : List Byte} (idle : s.idle) (wf : i.wellFormed = true)
    (input : s.input = encode i ++ rest) : step s = exec i (s.withInput rest) :=
  step_of_command idle ((decode_eq_command_iff _ rest i).mpr ⟨wf, input⟩)

/-- What a step can be: the reset, a well-formed command, in progress or just read, an illegal word, or nothing. -/
theorem step_cases (s : State) :
    step s = .next State.reset ∨
    (∃ i, s.pending = some i ∧ step s = exec i s) ∨
    (s.pending = none ∧ ∃ i rest, i.wellFormed = true ∧ step s = exec i (s.withInput rest)) ∨
    (∃ rest, step s = .next (s.illegalWord rest)) ∨
    (s.pending = none ∧ step s = .next s) := by
  by_cases reset : s.resetLine = true
  · exact .inl (step_of_resetLine reset)
  rw [Bool.not_eq_true] at reset
  cases pending : s.pending with
  | some i => exact .inr (.inl ⟨i, rfl, step_of_pending reset pending⟩)
  | none =>
    have idle : s.idle := ⟨pending, reset⟩
    cases reads : decode s.input with
    | command i rest =>
      have ⟨wf, _⟩ := (decode_eq_command_iff ..).mp reads
      exact .inr (.inr (.inl ⟨rfl, i, rest, wf, step_of_command idle reads⟩))
    | illegal why rest => exact .inr (.inr (.inr (.inl ⟨rest, step_of_illegal idle reads⟩)))
    | incomplete => exact .inr (.inr (.inr (.inr ⟨rfl, step_of_incomplete idle reads⟩)))

/-! ## Commands and their payload -/

/-- Only a format-L command has a payload to wait for. -/
theorem format_eq_l_of_payload {i : Instr} (payload : 0 < i.payloadLength) : i.format = .l := by
  cases i with
  | write n => rfl
  | unmarshal n => rfl
  | gfadd | gfmul | sum | reset | size | blocksize | marshal => cases payload

/-- A command whose payload has not all arrived waits. -/
theorem exec_of_short {i : Instr} {s : State} (short : s.input.length < i.payloadLength) : exec i s = .next (s.await i) := by
  cases i with
  | write n => exact congrArg Host.Outcome.next (withPayload_of_short _ short)
  | unmarshal n => exact congrArg Host.Outcome.next (withPayload_of_short _ short)
  | gfadd | gfmul | sum | reset | size | blocksize | marshal => cases short

/-- WRITE with its payload on the command stream. -/
theorem exec_write_of_append {s : State} {d rest : List Byte} (input : s.input = d ++ rest) :
    exec (.write d.length) s =
      .next (((s.withInput rest).withAcc (s.acc.write Config.chip d)).respond .ok d.length []) :=
  congrArg Host.Outcome.next (withPayload_of_append _ input rfl)

/-- UNMARSHAL with its payload on the command stream. -/
theorem exec_unmarshal_of_append {s : State} {b rest : List Byte} (input : s.input = b ++ rest) :
    exec (.unmarshal b.length) s = .next ((s.withInput rest).loadBlob b) :=
  congrArg Host.Outcome.next (withPayload_of_append _ input rfl)

/-! ## One response per command -/

/-- How many response bytes follow the response word of a command that succeeds (30_encoding.md R32). -/
def answerLength (i : Instr) : Nat :=
  if i = .sum then digestSize else if i = .marshal then blobSize else 0

/-- `t` is `s` with one response to command `i` sent and the command ended, and at most the context written: on an error, which
only UNMARSHAL answers, `value` 0, no payload and the context as it was (30_encoding.md R32, 60_exceptions.md R95, R99). -/
def State.answered (s : State) (i : Instr) (t : State) : Prop :=
  ∃ (a : Accumulator) (st : Status) (v : Nat) (p : List Byte), t = (s.withAcc a).respond st v p ∧
    (st ≠ .ok → v = 0 ∧ p = [] ∧ a = s.acc ∧ ∃ n, i = .unmarshal n) ∧
    (st = .ok → p.length = answerLength i)

theorem State.answered_ok {s : State} {i : Instr} (a : Accumulator) (v : Nat) {p : List Byte} (len : p.length = answerLength i) :
    s.answered i ((s.withAcc a).respond .ok v p) :=
  ⟨a, .ok, v, p, rfl, fun error => absurd rfl error, fun _ => len⟩

theorem State.answered_raise (s : State) (n : Nat) {e : Status} (error : e ≠ .ok) : s.answered (.unmarshal n) (s.raise e) :=
  ⟨s.acc, e, 0, [], rfl, fun _ => ⟨rfl, rfl, rfl, n, rfl⟩, fun ok => absurd ok error⟩

theorem State.answered_loadBlob (s : State) (n : Nat) (b : List Byte) : s.answered (.unmarshal n) (s.loadBlob b) := by
  obtain ⟨-, load⟩ | ⟨-, -, load⟩ | ⟨-, -, load⟩ := loadBlob_cases b s
  · rw [load]; exact s.answered_raise n (by decide)
  · rw [load]; exact s.answered_raise n (by decide)
  · rw [load]; exact State.answered_ok _ 0 rfl

/-- An answered command leaves the decoder idle. -/
theorem State.answered.pending_eq_none {s t : State} {i : Instr} (answered : s.answered i t) : t.pending = none := by
  obtain ⟨a, st, v, p, rfl, -⟩ := answered
  rfl

/-- A command that has its whole payload takes exactly that and answers. -/
theorem exec_of_payload {i : Instr} {s : State} {d rest : List Byte} (input : s.input = d ++ rest)
    (len : d.length = i.payloadLength) : ∃ t, exec i s = .next t ∧ (s.withInput rest).answered i t := by
  have operand_free (none : i.payloadLength = 0) : s.withInput rest = s := by
    obtain rfl : d = [] := List.eq_nil_of_length_eq_zero (len.trans none)
    rw [← List.nil_append rest, ← input]
    rfl
  cases i with
  | write n =>
    obtain rfl : d.length = n := len
    exact ⟨_, exec_write_of_append input, State.answered_ok _ _ rfl⟩
  | unmarshal n =>
    obtain rfl : d.length = n := len
    exact ⟨_, exec_unmarshal_of_append input, State.answered_loadBlob _ _ d⟩
  | gfadd a b => exact ⟨_, rfl, operand_free rfl ▸ State.answered_ok s.acc _ rfl⟩
  | gfmul a b => exact ⟨_, rfl, operand_free rfl ▸ State.answered_ok s.acc _ rfl⟩
  | sum => exact ⟨_, rfl, operand_free rfl ▸ State.answered_ok s.acc _ (by simp [answerLength, digestSize])⟩
  | reset => exact ⟨_, rfl, operand_free rfl ▸ State.answered_ok _ _ rfl⟩
  | size => exact ⟨_, rfl, operand_free rfl ▸ State.answered_ok s.acc _ rfl⟩
  | blocksize => exact ⟨_, rfl, operand_free rfl ▸ State.answered_ok s.acc _ rfl⟩
  | marshal => exact ⟨_, rfl, operand_free rfl ▸ State.answered_ok s.acc _ (by simp [answerLength])⟩

/-- What a command can do: wait for a payload that has not all arrived, or take exactly its payload and answer. -/
theorem exec_waits_or_answers (i : Instr) (s : State) :
    (s.input.length < i.payloadLength ∧ exec i s = .next (s.await i)) ∨
    (i.payloadLength ≤ s.input.length ∧
      ∃ t, exec i s = .next t ∧ (s.withInput (s.input.drop i.payloadLength)).answered i t) := by
  obtain short | whole := Nat.lt_or_ge s.input.length i.payloadLength
  · exact .inl ⟨short, exec_of_short short⟩
  · exact .inr ⟨whole, exec_of_payload (List.take_append_drop _ _).symm (List.length_take_of_le whole)⟩

/-! ## A command in progress is forgotten by the command that runs -/

theorem withPayload_await (s : State) (i j : Instr) {k : List Byte → State → State}
    (forgets : ∀ d u, k d (u.await j) = k d u) :
    (s.await j).withPayload i k = s.withPayload i k := by
  obtain ⟨short, runs⟩ | ⟨d, rest, input, len, runs⟩ := withPayload_cases s i k
  · exact (withPayload_of_short (s := s.await j) k short).trans runs.symm
  · exact ((withPayload_of_append (s := s.await j) k input len).trans (forgets d (s.withInput rest))).trans runs.symm

theorem State.loadBlob_await (s : State) (j : Instr) (b : List Byte) : (s.await j).loadBlob b = s.loadBlob b := by
  unfold State.loadBlob
  split <;> rfl

/-- What `exec` does does not depend on what the decoder holds (assumption log 13). -/
theorem exec_await (s : State) (i j : Instr) : exec i (s.await j) = exec i s := by
  cases i with
  | write n => exact congrArg Host.Outcome.next (withPayload_await s _ j fun _ _ => rfl)
  | unmarshal n => exact congrArg Host.Outcome.next (withPayload_await s _ j fun b u => u.loadBlob_await j b)
  | gfadd | gfmul | sum | reset | size | blocksize | marshal => rfl

end Sys2Proof.Machine
end

section
/-! The step statements (30_encoding.md R31, R32, R37; 93_implementation_defined.md U9): which command a step runs, when the block
waits, the decoder's invariant and one response per command. -/

namespace Sys2Proof.Machine

/-- Settles O6, by decode and by encode. -/
theorem stepRunsTheDecodedCommand : Obligations.StepRunsTheDecodedCommand := by
  unfold Obligations.StepRunsTheDecodedCommand
  intro s i rest idle
  exact ⟨step_of_command idle, step_of_encode idle⟩

/-- Settles O8: the decoder finds no whole word. -/
theorem idleBlockWaitsForACommandWord : Obligations.IdleBlockWaitsForACommandWord := by
  unfold Obligations.IdleBlockWaitsForACommandWord
  intro s idle short
  exact step_of_incomplete idle ((decode_eq_incomplete_iff _).mpr short)

/-- A command that is held and still waits is a step that changes nothing. -/
theorem step_of_pending_short {s : State} {i : Instr} (reset : s.resetLine = false) (pending : s.pending = some i)
    (short : s.input.length < i.payloadLength) : step s = .next s := by
  have held : s.await i = s := by rw [State.await, ← pending]
  rw [step_of_pending reset pending, exec_of_short short, held]

/-- Settles O9. -/
theorem incompletePayloadWaits : Obligations.IncompletePayloadWaits := by
  unfold Obligations.IncompletePayloadWaits
  intro n s short
  refine ⟨exec_of_short (i := .write n) short, exec_of_short (i := .unmarshal n) short, fun reset => ?_⟩
  rintro (pending | pending)
  · exact step_of_pending_short reset pending short
  · exact step_of_pending_short reset pending short

/-- Settles O10: the word leaves the decoder holding the command, which then runs as the command that has just been read. -/
theorem latePayloadGivesTheSameStep : Obligations.LatePayloadGivesTheSameStep := by
  unfold Obligations.LatePayloadGivesTheSameStep
  intro s i d e idle wf short input
  have waits : step s = .next ((s.withInput d).await i) := by
    rw [step_of_encode idle wf input, exec_of_short (s := s.withInput d) short]
  have ⟨_, reset⟩ := idle
  refine ⟨_, waits, rfl, rfl, rfl, ?_⟩
  have late : step (((s.withInput d).await i).hostSend e) = exec i ((s.withInput (d ++ e)).await i) :=
    step_of_pending reset rfl
  have all_there : step (s.hostSend e) = exec i (s.withInput (d ++ e)) :=
    step_of_encode idle wf (by rw [State.hostSend_input, input, List.append_assoc])
  rw [late, all_there, exec_await]

/-! ## The decoder's invariant -/

theorem State.inv_of_pending_eq_none {s : State} (pending : s.pending = none) : s.inv = true := by
  simp [State.inv, State.pendingIsFormatL, pending]

/-- Whatever a well-formed command does leaves the invariant: it waits only for a payload, or it ends. -/
theorem exec_gives_inv {i : Instr} {s t : State} (wf : i.wellFormed = true) (runs : exec i s = .next t) : t.inv = true := by
  obtain ⟨short, waits⟩ | ⟨_, u, answers, answered⟩ := exec_waits_or_answers i s
  · cases runs.symm.trans waits
    have format : i.format = .l := format_eq_l_of_payload (Nat.zero_lt_of_lt short)
    simp [State.inv, State.pendingIsFormatL, wf, format, short]
  · cases runs.symm.trans answers
    exact State.inv_of_pending_eq_none answered.pending_eq_none

/-- Settles O15: a command that runs is well formed, in progress by the premise and just read by the decoder. -/
theorem everyStepKeepsTheDecoderInvariant : Obligations.EveryStepKeepsTheDecoderInvariant := by
  unfold Obligations.EveryStepKeepsTheDecoderInvariant
  intro s t formatL steps
  obtain reset | ⟨i, pending, runs⟩ | ⟨-, i, rest, wf, runs⟩ | ⟨rest, illegal⟩ | ⟨pending, waits⟩ := step_cases s
  · cases steps.symm.trans reset
    rfl
  · have wf : i.wellFormed = true := by
      simp only [State.pendingIsFormatL, pending, Option.all_some, Bool.and_eq_true] at formatL
      exact formatL.1
    exact exec_gives_inv wf (runs.symm.trans steps)
  · exact exec_gives_inv wf (runs.symm.trans steps)
  · cases steps.symm.trans illegal
    exact State.inv_of_pending_eq_none rfl
  · cases steps.symm.trans waits
    exact State.inv_of_pending_eq_none pending

/-- Settles O16: the response word is the status and the three bytes of the value. -/
theorem everyCommandAnswersOneResponse : Obligations.EveryCommandAnswersOneResponse := by
  unfold Obligations.EveryCommandAnswersOneResponse
  intro i s t runs
  obtain ⟨short, waits⟩ | ⟨whole, u, answers, a, st, v, p, rfl, on_error, on_ok⟩ := exec_waits_or_answers i s
  · cases runs.symm.trans waits
    exact .inl ⟨short, rfl⟩
  · cases runs.symm.trans answers
    refine .inr ⟨whole, rfl, rfl, rfl, st, _, _, _, p, rfl, fun error => ?_, on_ok⟩
    obtain ⟨rfl, rfl, rfl, unmarshals⟩ := on_error error
    exact ⟨rfl, rfl, rfl, rfl, rfl, unmarshals⟩

end Sys2Proof.Machine
end

section
/-! The HASH script (30_encoding.md R39, 45_properties.md R83). A run over WRITE commands is WRITE's effect on the context, piece
by piece; below the counter limit (R104) no piece but the first that is not empty finds `LEN = 0`, so the pieces together are one
WRITE of the whole (R80); and the pieces of the script make up the data. -/

namespace Sys2Proof.Machine

/-! ## Writing in pieces -/

theorem Accumulator.seedFirst_of_len_ne_zero (c : Config) (d : List Byte) {a : Accumulator} (len : a.len ≠ 0) :
    a.seedFirst c d = a := by
  cases d with
  | nil => rfl
  | cons b d =>
    have not_fresh : ¬ a.isFresh = true := fun fresh => len (eq_of_beq fresh)
    exact if_neg not_fresh

/-- Below the counter limit WRITE counts its bytes without a wrap. -/
theorem Accumulator.write_len_toNat (c : Config) (d : List Byte) {a : Accumulator} (limit : a.len.toNat + d.length < 2 ^ 64) :
    (a.write c d).len.toNat = a.len.toNat + d.length := by
  rw [Accumulator.write_len, BitVec.toNat_add, BitVec.toNat_ofNat, Nat.add_mod_mod, Nat.mod_eq_of_lt limit]

/-- Two WRITEs below the counter limit are one WRITE of both payloads: the second finds a counter that is not 0, or nothing has
been written before it. -/
theorem Accumulator.write_append (c : Config) (d e : List Byte) (a : Accumulator) (limit : a.len.toNat + d.length < 2 ^ 64) :
    a.write c (d ++ e) = (a.write c d).write c e := by
  cases d with
  | nil => rfl
  | cons b d =>
    have counted := a.write_len_toNat c (b :: d) limit
    have not_zero : (a.write c (b :: d)).len ≠ 0 := fun zero => by simp [zero] at counted
    have no_seed : (a.write c (b :: d)).write c e = e.foldl (Accumulator.ingest c) (a.write c (b :: d)) :=
      congrArg (e.foldl (Accumulator.ingest c)) (Accumulator.seedFirst_of_len_ne_zero c e not_zero)
    rw [no_seed]
    exact Accumulator.foldl_ingest_append c (b :: d) e (a.seedFirst c (b :: d))

/-- Chunk invariance of the context (45_properties.md R80). -/
theorem Accumulator.foldl_write_eq_write_flatten (c : Config) (pieces : List (List Byte)) (a : Accumulator)
    (limit : a.len.toNat + pieces.flatten.length < 2 ^ 64) :
    pieces.foldl (fun a p => a.write c p) a = a.write c pieces.flatten := by
  induction pieces generalizing a with
  | nil => rfl
  | cons p pieces ih =>
    rw [List.flatten_cons, List.length_append] at limit
    have counted := a.write_len_toNat c p (by omega)
    rw [List.foldl_cons, ih _ (by omega), List.flatten_cons, Accumulator.write_append c p _ a (by omega)]

/-! ## Runs of commands -/

/-- One step of a run: the command at the head of the command stream. -/
theorem run_succ_of_encode {s t : State} {i : Instr} {rest : List Byte} (k : Nat) (idle : s.idle) (wf : i.wellFormed = true)
    (input : s.input = encode i ++ rest) (runs : exec i (s.withInput rest) = .next t) : run (k + 1) s = run k t :=
  run_succ k ((step_of_encode idle wf input).trans runs)

/-- The state after WRITE commands of these payloads, of which the block has taken the bytes up to `rest`. -/
def State.written (s : State) (pieces : List (List Byte)) (rest : List Byte) : State :=
  { s with
    acc := pieces.foldl (fun a p => a.write Config.chip p) s.acc
    input := rest
    output := s.output ++ pieces.flatMap fun p => responseWord .ok p.length }

/-- A run over WRITE commands writes their payloads in order and acknowledges each. -/
theorem run_writes (pieces : List (List Byte)) (rest : List Byte) (k : Nat) {s : State} (idle : s.idle)
    (fit : ∀ p ∈ pieces, p.length ≤ lmax) (input : s.input = pieces.flatMap writeCommand ++ rest) :
    run (pieces.length + k) s = run k (s.written pieces rest) := by
  induction pieces generalizing s with
  | nil =>
    have same : s.written [] rest = s := by
      have input : s.input = rest := input
      simp [State.written, ← input]
    rw [same, List.length_nil, Nat.zero_add]
  | cons p pieces ih =>
    have ⟨pending, reset⟩ := idle
    have ⟨fits, fit_rest⟩ := List.forall_mem_cons.mp fit
    have head : s.input = encode (.write p.length) ++ (p ++ (pieces.flatMap writeCommand ++ rest)) := by
      simp only [input, List.flatMap_cons, writeCommand, List.append_assoc]
    have wf : (Instr.write p.length).wellFormed = true := decide_eq_true fits
    have first := run_succ_of_encode (pieces.length + k) idle wf head (exec_write_of_append rfl)
    rw [List.length_cons, Nat.add_right_comm]
    refine first.trans ((ih ?idle fit_rest ?input).trans (congrArg (run k) ?state))
    case idle => exact ⟨rfl, reset⟩
    case input => rfl
    case state => simp [State.written, pending]

/-! ## The pieces of the script -/

/-- The first `j` pieces of `m` bytes make up the first `j * m` bytes. -/
theorem flatten_pieces {α : Type} (d : List α) (m j : Nat) :
    ((List.range j).map fun k => (d.drop (k * m)).take m).flatten = d.take (j * m) := by
  induction j with
  | zero => simp
  | succ j ih => rw [List.range_succ, List.map_append, List.flatten_append, ih, Nat.succ_mul, List.take_add]; simp

@[simp] theorem writePieces_flatten (d : List Byte) : (writePieces d).flatten = d := by
  unfold writePieces
  split
  · simp
  · have enough : d.length ≤ (d.length + lmax - 1) / lmax * lmax := by unfold lmax; omega
    rw [flatten_pieces, List.take_of_length_le enough]

/-- Every piece fits one WRITE command. -/
theorem length_le_lmax_of_mem_writePieces {d p : List Byte} (mem : p ∈ writePieces d) : p.length ≤ lmax := by
  unfold writePieces at mem
  split at mem
  · next fits =>
    obtain rfl := List.mem_singleton.mp mem
    exact fits
  · obtain ⟨k, -, rfl⟩ := List.mem_map.mp mem
    exact List.length_take_le _ _

/-- An acknowledgement is four bytes. -/
theorem length_flatMap_responseWord (pieces : List (List Byte)) :
    (pieces.flatMap fun p => responseWord .ok p.length).length = 4 * pieces.length := by
  simp [responseWord, Nat.mul_comm]

/-! ## RESET, WRITEs and SUM -/

/-- The state after RESET and WRITE commands of these payloads, with nothing left on the command stream. -/
def State.rewritten (s : State) (pieces : List (List Byte)) : State :=
  ((s.withAcc s.acc.clear).respond .ok 0 []).written pieces []

/-- A run over RESET, WRITE commands and a SUM that ends the command stream. -/
theorem run_reset_writes_sum (pieces : List (List Byte)) {s : State} (idle : s.idle) (fit : ∀ p ∈ pieces, p.length ≤ lmax)
    (input : s.input = encode .reset ++ (pieces.flatMap writeCommand ++ encode .sum)) :
    run (pieces.length + 2) s = .next ((s.rewritten pieces).answerDigest Config.chip) := by
  have ⟨_, reset⟩ := idle
  have resets := run_succ_of_encode (pieces.length + 1) idle rfl input rfl
  have writes := run_writes pieces (encode .sum) 1
    (s := ((s.withInput (pieces.flatMap writeCommand ++ encode .sum)).withAcc s.acc.clear).respond .ok 0 [])
    ⟨rfl, reset⟩ fit rfl
  refine resets.trans (writes.trans ?_)
  exact run_succ_of_encode 0 ⟨rfl, reset⟩ rfl (List.append_nil _).symm rfl

/-- RESET leaves the fresh logical state, so the WRITEs leave that of the data, whatever the state was. -/
theorem State.rewritten_logical (s : State) (pieces : List (List Byte)) (limit : pieces.flatten.length < 2 ^ 64) :
    (s.rewritten pieces).acc.logical = (absorb Config.chip pieces.flatten).logical := by
  have from_zero : s.acc.clear.len.toNat + pieces.flatten.length < 2 ^ 64 := by simpa using limit
  have whole := Accumulator.foldl_write_eq_write_flatten Config.chip pieces s.acc.clear from_zero
  exact (congrArg Accumulator.logical whole).trans
    (Accumulator.write_congr Config.chip pieces.flatten (a' := Accumulator.fresh) s.acc.clear_logical)

/-- Settles O38: the pieces of the script make up the data, and SUM answers from the logical state. -/
theorem hashScriptAnswersTheDigest : Obligations.HashScriptAnswersTheDigest := by
  unfold Obligations.HashScriptAnswersTheDigest
  intro s d idle limit input
  have ⟨_, reset⟩ := idle
  have runs := run_reset_writes_sum (writePieces d) idle (fun _ mem => length_le_lmax_of_mem_writePieces mem)
    (input.trans (List.append_assoc ..))
  have same := s.rewritten_logical (writePieces d) (by rwa [writePieces_flatten])
  rw [writePieces_flatten] at same
  have digest : (s.rewritten (writePieces d)).acc.digest Config.chip = digestOf Config.chip d :=
    Accumulator.digest_congr Config.chip same
  refine ⟨_, responseWord .ok 0 ++ (writePieces d).flatMap fun p => responseWord .ok p.length, runs, ?_, ?_, same,
    rfl, rfl, reset⟩
  · rw [List.length_append, length_flatMap_responseWord, Nat.mul_succ, Nat.add_comm]
    rfl
  · rw [← digest, ← List.append_assoc s.output]
    rfl

end Sys2Proof.Machine
end

section
/-! SUPPORT. A byte as a residue class of GF(2)[x] modulo `POLY` (40_field_arithmetic.md R40, R42). Distinct bytes are distinct
classes wherever bit 8 of `POLY` is set; exclusive or is their addition, `xtime` the multiplication by the class of x and `gfmul`
the multiplication. Mathlib's theorems on the quotient ring then speak about the model's own operations. -/

namespace Sys2Proof

theorem Config.poly_bit8 (c : Config) : c.poly.getLsbD 8 = true :=
  ((isIrreducible_iff_irreducible c.poly).mp c.poly_irreducible).1

theorem Config.poly_irreducible_gf2 (c : Config) : Irreducible (gf2Poly c.poly) :=
  ((isIrreducible_iff_irreducible c.poly).mp c.poly_irreducible).2

end Sys2Proof

namespace Sys2Proof.Machine

open Polynomial (X C)

/-- The residue class modulo `POLY` of the polynomial that a byte stands for. -/
noncomputable def fieldElement (poly : BitVec 9) (v : Byte) : AdjoinRoot (gf2Poly poly) :=
  AdjoinRoot.mk (gf2Poly poly) (gf2Poly v)

/-! ## Bytes are the residues -/

section
variable {poly : BitVec 9} (bit8 : poly.getLsbD 8 = true)
include bit8

theorem gf2Poly_monic : (gf2Poly poly).Monic :=
  monic_of_natDegree_pos_gf2 (by rw [gf2Poly_natDegree_eq_eight bit8]; decide)

/-- A byte is its own remainder. -/
theorem gf2Poly_byte_modByMonic (v : Byte) : gf2Poly v %ₘ gf2Poly poly = gf2Poly v := by
  have monic := gf2Poly_monic bit8
  refine (Polynomial.modByMonic_eq_self_iff monic).mpr ?_
  rw [Polynomial.degree_eq_natDegree monic.ne_zero, gf2Poly_natDegree_eq_eight bit8]
  exact Polynomial.ofFn_degree_lt _

/-- The only byte in the class of a polynomial is its remainder. -/
theorem fieldElement_eq_mk_iff (v : Byte) (q : Polynomial (ZMod 2)) :
    fieldElement poly v = AdjoinRoot.mk (gf2Poly poly) q ↔ gf2Poly v = q %ₘ gf2Poly poly := by
  have monic := gf2Poly_monic bit8
  rw [fieldElement, AdjoinRoot.mk_eq_mk, ← Polynomial.modByMonic_eq_zero_iff_dvd monic, Polynomial.sub_modByMonic,
    gf2Poly_byte_modByMonic bit8, sub_eq_zero]

theorem fieldElement_injective : Function.Injective (fieldElement poly) := fun u v same => by
  have residue := (fieldElement_eq_mk_iff bit8 u (gf2Poly v)).mp same
  exact gf2Poly_injective (residue.trans (gf2Poly_byte_modByMonic bit8 v))

/-- `POLY` is its low eight bits and x^8. -/
theorem gf2Poly_eq_low_add : gf2Poly poly = gf2Poly (poly.setWidth 8) + X ^ 8 := by
  ext i
  rw [Polynomial.coeff_add, Polynomial.coeff_X_pow, gf2Poly_coeff, gf2Poly_coeff, BitVec.getLsbD_setWidth]
  obtain below | rfl | above := Nat.lt_trichotomy i 8
  · simp [below, below.ne]
  · simp [bit8]
  · simp [above.ne', Nat.not_lt.mpr above.le, BitVec.getLsbD_of_ge poly i above]

end

/-! ## The operations on classes -/

section
variable {poly : BitVec 9}

@[simp] theorem fieldElement_zero : fieldElement poly 0#8 = 0 := by
  simp [fieldElement]

theorem fieldElement_eq_zero_iff (bit8 : poly.getLsbD 8 = true) (v : Byte) : fieldElement poly v = 0 ↔ v = 0 := by
  rw [← (fieldElement_injective bit8).eq_iff]
  exact Eq.congr_right fieldElement_zero.symm

@[simp] theorem fieldElement_one : fieldElement poly 1#8 = 1 := by
  have one : gf2Poly 1#8 = 1 := by
    ext i
    simp [Polynomial.coeff_one, BitVec.getLsbD_one, eq_comm]
  rw [fieldElement, one, map_one]

@[simp] theorem fieldElement_xor (a b : Byte) :
    fieldElement poly (a ^^^ b) = fieldElement poly a + fieldElement poly b := by
  simp [fieldElement]

/-- A byte shifted left, its lost bit 7 put back as x^8, is the multiple by x. -/
theorem gf2Poly_shiftLeft_one_add (t : Byte) :
    gf2Poly (t <<< 1) + (if t.getLsbD 7 then X ^ 8 else 0) = gf2Poly t * X := by
  have lost : (if t.getLsbD 7 then X ^ 8 else 0 : Polynomial (ZMod 2)) = C ((gf2Poly t).coeff 7) * X ^ 8 := by
    simp
  ext i
  rw [lost, Polynomial.coeff_add, Polynomial.coeff_C_mul_X_pow]
  cases i with
  | zero => simp
  | succ k =>
    rw [Polynomial.coeff_mul_X]
    obtain below | rfl | above := Nat.lt_trichotomy k 7
    · simp [below.ne, show k + 1 < 8 by omega, BitVec.getLsbD_eq_getElem (x := t) (show k < 8 by omega)]
    · simp
    · simp [above.ne', BitVec.getLsbD_of_ge t k above]

/-- `xtime` multiplies by the class of x: where it drops x^8 it adds the low bits of `POLY`, which are the same class. -/
theorem fieldElement_xtime (bit8 : poly.getLsbD 8 = true) (t : Byte) :
    fieldElement poly (xtime poly t) = fieldElement poly t * AdjoinRoot.root (gf2Poly poly) := by
  rw [fieldElement, fieldElement, ← AdjoinRoot.mk_X, ← map_mul, ← gf2Poly_shiftLeft_one_add, AdjoinRoot.mk_eq_mk, xtime]
  cases t.getLsbD 7
  · simp
  · simp [CharTwo.sub_eq_add, gf2Poly_eq_low_add bit8, add_add_add_comm, CharTwo.add_self_eq_zero]

/-- A byte is the sum of the powers of x that its set bits name. -/
theorem fieldElement_eq_sum (b : Byte) :
    fieldElement poly b =
      ∑ k ∈ Finset.range 8, if b.getLsbD k then AdjoinRoot.root (gf2Poly poly) ^ k else 0 := by
  have degree_b : (gf2Poly b).natDegree < 8 := Polynomial.ofFn_natDegree_lt (by decide) _
  rw [fieldElement, Polynomial.as_sum_range_C_mul_X_pow' _ degree_b, map_sum]
  refine Finset.sum_congr rfl fun k _ => ?_
  cases hb : b.getLsbD k <;> simp [hb]

/-- What the loop of `gfmul` holds after `n` turns: the product by the low `n` bits of `b`, and the multiple of `a` by x^n. -/
theorem gfmulStep_foldl (bit8 : poly.getLsbD 8 = true) (a b : Byte) (n : Nat) :
    let rt := (List.range n).foldl (gfmulStep poly b) (0, a)
    fieldElement poly rt.1 = fieldElement poly a *
      ∑ k ∈ Finset.range n, (if b.getLsbD k then AdjoinRoot.root (gf2Poly poly) ^ k else 0) ∧
    fieldElement poly rt.2 = fieldElement poly a * AdjoinRoot.root (gf2Poly poly) ^ n := by
  induction n with
  | zero => simp
  | succ n ih =>
    obtain ⟨product, multiple⟩ := ih
    rw [List.range_succ, List.foldl_append, Finset.sum_range_succ, mul_add, ← product, pow_succ, ← mul_assoc, ← multiple]
    refine ⟨?_, fieldElement_xtime bit8 _⟩
    cases hb : b.getLsbD n
    · simp [gfmulStep, hb]
    · simp only [List.foldl_cons, List.foldl_nil, gfmulStep, hb, if_true, fieldElement_xor, multiple]

/-- `gfmul` is the multiplication of classes. -/
theorem fieldElement_gfmul (bit8 : poly.getLsbD 8 = true) (a b : Byte) :
    fieldElement poly (gfmul poly a b) = fieldElement poly a * fieldElement poly b := by
  rw [fieldElement_eq_sum b]
  exact (gfmulStep_foldl bit8 a b 8).1

/-- `gfmul` is the remainder of the product of polynomials. -/
theorem gf2Poly_gfmul (bit8 : poly.getLsbD 8 = true) (a b : Byte) :
    gf2Poly (gfmul poly a b) = gf2Poly (clmul a b) %ₘ gf2Poly poly := by
  rw [← fieldElement_eq_mk_iff bit8, gf2Poly_clmul, map_mul]
  exact fieldElement_gfmul bit8 a b

end

end Sys2Proof.Machine
end

section
/-! The field arithmetic statements (40_field_arithmetic.md R41 to R44). The definition of R42 and its quotient come from division
with remainder of polynomials; the laws of R43 are those of the quotient ring, and an irreducible `POLY` leaves it no zero
divisors. -/

namespace Sys2Proof.Machine

open Polynomial (X)

/-! ## The definition of R42 -/

/-- A carry-less product has degree at most 14. -/
theorem gf2Poly_clmul_natDegree_lt (a b : Byte) : (gf2Poly (clmul a b)).natDegree < 15 := by
  have degree_byte (v : Byte) : (gf2Poly v).natDegree < 8 := Polynomial.ofFn_natDegree_lt (by decide) _
  have degree_product := Polynomial.natDegree_mul_le (p := gf2Poly a) (q := gf2Poly b)
  have degree_a := degree_byte a
  have degree_b := degree_byte b
  rw [gf2Poly_clmul]
  omega

section
variable {poly : BitVec 9} (bit8 : poly.getLsbD 8 = true)
include bit8

/-- Seven cancellations leave the remainder of a carry-less product. -/
theorem gf2Poly_polyRem_clmul (a b : Byte) :
    gf2Poly (polyRem (poly.setWidth 16) 8 7 (clmul a b)) = gf2Poly (clmul a b) %ₘ gf2Poly poly := by
  have same : gf2Poly (poly.setWidth 16) = gf2Poly poly := gf2Poly_setWidth poly (by decide)
  have degree_eq : (gf2Poly (poly.setWidth 16)).natDegree = 8 := by rw [same, gf2Poly_natDegree_eq_eight bit8]
  have ne_zero : poly.setWidth 16 ≠ 0#16 := by
    rw [Ne, ← gf2Poly_eq_zero_iff, same]
    exact (gf2Poly_monic bit8).ne_zero
  have remainder := gf2Poly_polyRem ne_zero 7 (clmul a b)
  rw [degree_eq, same] at remainder
  refine remainder (by decide) (Polynomial.degree_le_natDegree.trans_lt ?_)
  exact WithBot.coe_lt_coe.mpr (gf2Poly_clmul_natDegree_lt a b)

/-- The shift-and-add product is the remainder that R42 defines. -/
theorem gfmul_setWidth_eq_polyRem (a b : Byte) :
    (gfmul poly a b).setWidth 16 = polyRem (poly.setWidth 16) 8 7 (clmul a b) := by
  apply gf2Poly_injective
  rw [gf2Poly_setWidth _ (by decide), gf2Poly_gfmul bit8, gf2Poly_polyRem_clmul bit8]

/-- The quotient of a carry-less product by `POLY` is a polynomial of degree at most 6. -/
theorem exists_quotient_of_clmul (a b : Byte) :
    ∃ q : Byte, q.getLsbD 7 = false ∧ gf2Poly q = gf2Poly (clmul a b) /ₘ gf2Poly poly := by
  have degree_quotient : (gf2Poly (clmul a b) /ₘ gf2Poly poly).natDegree < 7 := by
    have degree_product := gf2Poly_clmul_natDegree_lt a b
    rw [Polynomial.natDegree_divByMonic _ (gf2Poly_monic bit8), gf2Poly_natDegree_eq_eight bit8]
    omega
  obtain ⟨q, quotient⟩ := exists_gf2Poly_eq _ degree_quotient
  exact ⟨q.setWidth 8, by simp, by rw [gf2Poly_setWidth q (by decide), quotient]⟩

/-- The product differs from the answer by the quotient times `POLY`, whose bit 8 is the shift by eight. -/
theorem exists_clmul_eq_gfmul_xor (a b : Byte) :
    ∃ q : Byte, q.getLsbD 7 = false ∧
      clmul a b = (gfmul poly a b).setWidth 16 ^^^ clmul q (poly.setWidth 8) ^^^ (q.setWidth 16 <<< 8) := by
  obtain ⟨q, small, quotient⟩ := exists_quotient_of_clmul bit8 a b
  have shifted : gf2Poly (q.setWidth 16 <<< 8) = gf2Poly q * X ^ 8 := by
    rw [gf2Poly_shiftLeft, gf2Poly_setWidth _ (by decide)]
    intro i hi
    simp [BitVec.getLsbD_of_ge q i (by omega)]
  refine ⟨q, small, gf2Poly_injective ?_⟩
  calc gf2Poly (clmul a b)
      = gf2Poly (gfmul poly a b) + gf2Poly poly * gf2Poly q := by
        rw [gf2Poly_gfmul bit8, quotient, Polynomial.modByMonic_add_div]
    _ = gf2Poly (gfmul poly a b) + gf2Poly q * gf2Poly (poly.setWidth 8) + gf2Poly q * X ^ 8 := by
        rw [gf2Poly_eq_low_add bit8, add_mul, mul_comm, mul_comm (X ^ 8), add_assoc]
    _ = _ := by
        rw [gf2Poly_xor, gf2Poly_xor, gf2Poly_setWidth (gfmul poly a b) (by decide), gf2Poly_clmul, shifted]

end

/-! ## The laws of multiplication -/

section
variable {poly : BitVec 9} (bit8 : poly.getLsbD 8 = true)
include bit8

theorem gfmul_comm (a b : Byte) : gfmul poly a b = gfmul poly b a := by
  apply fieldElement_injective bit8
  rw [fieldElement_gfmul bit8, fieldElement_gfmul bit8, mul_comm]

theorem gfmul_assoc (a b c : Byte) : gfmul poly (gfmul poly a b) c = gfmul poly a (gfmul poly b c) := by
  apply fieldElement_injective bit8
  simp only [fieldElement_gfmul bit8, mul_assoc]

theorem gfmul_gfadd (a b c : Byte) : gfmul poly a (gfadd b c) = gfadd (gfmul poly a b) (gfmul poly a c) := by
  apply fieldElement_injective bit8
  simp only [gfadd, fieldElement_gfmul bit8, fieldElement_xor, mul_add]

theorem gfadd_gfmul (a b c : Byte) : gfmul poly (gfadd a b) c = gfadd (gfmul poly a c) (gfmul poly b c) := by
  rw [gfmul_comm bit8, gfmul_gfadd bit8, gfmul_comm bit8 c a, gfmul_comm bit8 c b]

theorem gfmul_one (a : Byte) : gfmul poly a 1 = a := by
  apply fieldElement_injective bit8
  simp [fieldElement_gfmul bit8]

theorem gfmul_zero (a : Byte) : gfmul poly a 0 = 0 := by
  apply fieldElement_injective bit8
  simp [fieldElement_gfmul bit8]

/-- The byte 2 is the polynomial x. -/
theorem gfmul_two (a : Byte) : gfmul poly a 2 = xtime poly a := by
  have two : xtime poly 1 = 2 := rfl
  apply fieldElement_injective bit8
  rw [← two, fieldElement_gfmul bit8, fieldElement_xtime bit8, fieldElement_xtime bit8]
  simp

end

/-! ## What irreducibility adds (R44) -/

theorem gfmul_eq_zero (c : Config) {a b : Byte} (zero : gfmul c.poly a b = 0) : a = 0 ∨ b = 0 := by
  have domain : IsDomain (AdjoinRoot (gf2Poly c.poly)) := AdjoinRoot.isDomain_of_prime c.poly_irreducible_gf2.prime
  have zero_iff := fieldElement_eq_zero_iff c.poly_bit8
  rwa [← zero_iff, fieldElement_gfmul c.poly_bit8, mul_eq_zero, zero_iff, zero_iff] at zero

/-- Equal multiples of `k` differ by a multiple of `k` that is zero; and an injection of the bytes into themselves is onto. -/
theorem gfmul_right_bijective (c : Config) {k : Byte} (nonzero : k ≠ 0) : Function.Bijective fun a => gfmul c.poly a k := by
  refine Finite.injective_iff_bijective.mp fun a a' same => ?_
  have zero : gfmul c.poly (gfadd a a') k = 0 := by
    rw [gfadd_gfmul c.poly_bit8, show gfmul c.poly a k = gfmul c.poly a' k from same]
    exact BitVec.xor_self
  exact BitVec.xor_eq_zero_iff.mp ((gfmul_eq_zero c zero).resolve_right nonzero)

/-- The inverse of `a` is the byte that multiplication by `a` takes to 1. -/
theorem exists_unique_inverse (c : Config) {a : Byte} (nonzero : a ≠ 0) :
    ∃ b, gfmul c.poly a b = 1 ∧ ∀ b', gfmul c.poly a b' = 1 → b' = b := by
  obtain ⟨b, inverse, unique⟩ := (gfmul_right_bijective c nonzero).existsUnique 1
  have swap := gfmul_comm c.poly_bit8 a
  exact ⟨b, (swap b).trans inverse, fun b' inverse' => unique b' ((swap b').symm.trans inverse')⟩

/-! ## The statements -/

/-- The response to a command that answers one byte. -/
theorem State.respond_byte (s : State) (v : Byte) :
    s.respond .ok v.toNat [] = { s with output := s.output ++ [0, 0, 0, v], pending := none } := by
  have high : v.toNat >>> 16 = 0 ∧ v.toNat >>> 8 = 0 := by
    simp only [Nat.shiftRight_eq_div_pow]
    omega
  simp [State.respond, responseWord, beBytes, Status.code, high]

/-- Settles O19: GFADD is the response with that byte. -/
theorem gfaddAnswersTheExclusiveOr : Obligations.GfaddAnswersTheExclusiveOr := by
  unfold Obligations.GfaddAnswersTheExclusiveOr
  exact fun a b s => congrArg Host.Outcome.next (s.respond_byte (gfadd a b))

/-- Settles O20: the byte that shift-and-add answers is the remainder, which fits a byte. -/
theorem gfmulAnswersTheProductModuloPoly : Obligations.GfmulAnswersTheProductModuloPoly := by
  unfold Obligations.GfmulAnswersTheProductModuloPoly
  intro a b s
  rw [← gfmul_setWidth_eq_polyRem Config.chip.poly_bit8, BitVec.setWidth_setWidth_of_le _ (by decide), BitVec.setWidth_eq]
  exact congrArg Host.Outcome.next (s.respond_byte (gfmul Config.chip.poly a b))

/-- Settles O21: the remainder and its quotient by division of polynomials, the corner values by the classes of 0, 1 and x. -/
theorem shiftAndAddIsTheRemainderOfTheProduct : Obligations.ShiftAndAddIsTheRemainderOfTheProduct := by
  unfold Obligations.ShiftAndAddIsTheRemainderOfTheProduct
  intro poly bit8
  refine ⟨fun a b => ⟨gfmul_setWidth_eq_polyRem bit8 a b, exists_clmul_eq_gfmul_xor bit8 a b⟩, fun a => ?_, ?_⟩
  · exact ⟨gfmul_zero bit8 a, (gfmul_comm bit8 0 a).trans (gfmul_zero bit8 a), gfmul_one bit8 a,
      (gfmul_comm bit8 1 a).trans (gfmul_one bit8 a), gfmul_two bit8 a⟩
  · rw [gfmul_two bit8]
    simp [xtime]

/-- Settles O22: addition is exclusive or, and multiplication obeys the laws of the quotient ring. -/
theorem fieldOperationsObeyTheirLaws : Obligations.FieldOperationsObeyTheirLaws := by
  unfold Obligations.FieldOperationsObeyTheirLaws
  intro poly a b c bit8
  exact ⟨BitVec.xor_comm a b, BitVec.xor_assoc a b c, BitVec.xor_zero, BitVec.xor_self, gfmul_comm bit8 a b,
    gfmul_assoc bit8 a b c, gfmul_gfadd bit8 a b c, gfadd_gfmul bit8 a b c⟩

/-- Settles O23: the quotient ring by an irreducible `POLY` has no zero divisors, and there are finitely many bytes. -/
theorem nonzeroElementsHaveInverses : Obligations.NonzeroElementsHaveInverses := by
  unfold Obligations.NonzeroElementsHaveInverses
  intro c
  exact ⟨fun _ => exists_unique_inverse c, fun _ _ => gfmul_eq_zero c, fun _ => gfmul_right_bijective c⟩

end Sys2Proof.Machine
end

section
/-! The pipeline statements (41_compression.md R50 to R54): FOLD, SEED and PADBLOCK lane by lane, their corner cases and their
linearity. Each identity of vectors is the identity of its lanes, which is a law of the field arithmetic. -/

namespace Sys2Proof.Machine

/-! ## Lanes of sums and multiples -/

@[simp] theorem addBytes_getElem {n : Nat} (u v : Vector Byte n) (i : Nat) (hi : i < n) :
    (addBytes u v)[i] = gfadd u[i] v[i] := by
  simp [addBytes]

@[simp] theorem scaleBytes_getElem {n : Nat} (poly : BitVec 9) (k : Byte) (v : Vector Byte n) (i : Nat) (hi : i < n) :
    (scaleBytes poly k v)[i] = gfmul poly k v[i] := by
  simp [scaleBytes]

/-! ## The laws a lane uses -/

@[simp] theorem gfadd_zero (a : Byte) : gfadd a 0 = a := BitVec.xor_zero

theorem gfadd_gfadd_cancel (a b : Byte) : gfadd (gfadd a b) b = a := by
  unfold gfadd
  rw [BitVec.xor_assoc, BitVec.xor_self, BitVec.xor_zero]

theorem gfadd_gfadd_gfadd_comm (a b a' b' : Byte) :
    gfadd (gfadd a a') (gfadd b b') = gfadd (gfadd a b) (gfadd a' b') := by
  unfold gfadd
  ac_rfl

theorem zero_gfmul (c : Config) (k : Byte) : gfmul c.poly 0 k = 0 :=
  (gfmul_comm c.poly_bit8 0 k).trans (gfmul_zero c.poly_bit8 k)

/-! ## Corner cases of FOLD and SEED -/

theorem fold_zeros (c : Config) (h : Vector Byte 32) : fold c h (Vector.replicate 64 0) = h := by
  ext1 i hi
  rw [fold_getElem, Vector.getElem_replicate, zero_gfmul, gfadd_zero]

theorem fold_fold (c : Config) (h : Vector Byte 32) (p : Vector Byte 64) : fold c (fold c h p) p = h := by
  ext1 i hi
  rw [fold_getElem, fold_getElem, gfadd_gfadd_cancel]

theorem seed_zero (c : Config) : seed c 0 = Vector.replicate 32 0 := by
  ext1 i hi
  rw [seed_getElem, Vector.getElem_replicate, zero_gfmul]

theorem fold_getElem_of_coef_eq_zero (c : Config) (h : Vector Byte 32) (p : Vector Byte 64) (i : Nat) (hi : i < 32)
    (coef : c.coef[i] = 0) : (fold c h p)[i] = h[i] := by
  rw [fold_getElem, coef, gfmul_zero c.poly_bit8, gfadd_zero]

/-! ## Linearity -/

theorem fold_addBytes (c : Config) (h h' : Vector Byte 32) (p p' : Vector Byte 64) :
    fold c (addBytes h h') (addBytes p p') = addBytes (fold c h p) (fold c h' p') := by
  ext1 i hi
  simp only [fold_getElem, addBytes_getElem, gfadd_gfmul c.poly_bit8]
  exact gfadd_gfadd_gfadd_comm ..

theorem fold_scaleBytes (c : Config) (k : Byte) (h : Vector Byte 32) (p : Vector Byte 64) :
    fold c (scaleBytes c.poly k h) (scaleBytes c.poly k p) = scaleBytes c.poly k (fold c h p) := by
  ext1 i hi
  simp only [fold_getElem, scaleBytes_getElem, gfmul_assoc c.poly_bit8, gfmul_gfadd c.poly_bit8]

theorem seed_gfadd (c : Config) (b b' : Byte) : seed c (gfadd b b') = addBytes (seed c b) (seed c b') := by
  ext1 i hi
  simp only [seed_getElem, addBytes_getElem, gfadd_gfmul c.poly_bit8]

theorem seed_gfmul (c : Config) (k b : Byte) : seed c (gfmul c.poly k b) = scaleBytes c.poly k (seed c b) := by
  ext1 i hi
  simp only [seed_getElem, scaleBytes_getElem, gfmul_assoc c.poly_bit8]

/-- A padded byte is zero, and so is the sum of two. -/
theorem padblock_addBytes (p p' : Vector Byte 64) (nx : Nat) :
    padblock (addBytes p p') nx = addBytes (padblock p nx) (padblock p' nx) := by
  ext1 j hj
  simp only [padblock_getElem, addBytes_getElem]
  split
  · rfl
  · rw [gfadd_zero]

/-- A padded byte is zero, and so is its multiple. -/
theorem padblock_scaleBytes (c : Config) (k : Byte) (p : Vector Byte 64) (nx : Nat) :
    padblock (scaleBytes c.poly k p) nx = scaleBytes c.poly k (padblock p nx) := by
  ext1 j hj
  simp only [padblock_getElem, scaleBytes_getElem]
  split
  · rfl
  · rw [gfmul_zero c.poly_bit8]

/-! ## The statements -/

/-- Settles O25: the lanes of the three vectors. -/
theorem foldSeedAndPadblockAreGivenLaneByLane : Obligations.FoldSeedAndPadblockAreGivenLaneByLane := by
  unfold Obligations.FoldSeedAndPadblockAreGivenLaneByLane
  intro c h p x b nx
  exact ⟨fun i => fold_getElem c h p i i.isLt, fun i => seed_getElem c b i i.isLt, fun j => padblock_getElem x nx j j.isLt⟩

/-- Settles O26: products with zero vanish, and a byte added twice cancels. -/
theorem foldingTwiceRestoresTheState : Obligations.FoldingTwiceRestoresTheState := by
  unfold Obligations.FoldingTwiceRestoresTheState
  intro c h p
  exact ⟨fold_zeros c h, fold_fold c h p, seed_zero c, fun i => fold_getElem_of_coef_eq_zero c h p i i.isLt⟩

/-- Settles O27: multiplication by `COEF[i]` is linear. -/
theorem pipelineIsLinear : Obligations.PipelineIsLinear := by
  unfold Obligations.PipelineIsLinear
  intro c h h' p p' b b' k nx
  exact ⟨fold_addBytes c h h' p p', fold_scaleBytes c k h p, seed_gfadd c b b', seed_gfmul c k b, padblock_addBytes p p' nx,
    padblock_scaleBytes c k p nx⟩

end Sys2Proof.Machine
end

section
/-! The closed form of the digest (41_compression.md R55). Each fold adds one block byte times `COEF[i]` to lane `i`, so by the
distributive law the lanes stay the closed form over the blocks folded so far. WRITE's loop keeps this along the stream,
hence WRITE keeps the state invariant of 45_properties.md R89, and SUM folds the last block read as followed by zeros. -/

namespace Sys2Proof.Machine

/-! ## The closed form and its folds -/

theorem xorAll_concat (bs : List Byte) (b : Byte) : xorAll (bs ++ [b]) = xorAll bs ^^^ b :=
  List.foldl_concat ..

/-- Before any block is folded the closed form is the lane of the seed. -/
theorem closedLane_zero (c : Config) (d : List Byte) (i : Fin 32) :
    closedLane c d 0 i = gfmul c.poly (d.getD 0 0) c.coef[i.val] :=
  congrArg (gfmul c.poly · c.coef[i.val]) BitVec.xor_zero

/-- One more block adds its byte at the lane's offset, times the lane's coefficient. -/
theorem closedLane_succ (c : Config) (d : List Byte) (m : Nat) (i : Fin 32) :
    closedLane c d (m + 1) i =
      gfadd (closedLane c d m i) (gfmul c.poly (d.getD (64 * m + (c.perm[i.val]).val) 0) c.coef[i.val]) := by
  rw [closedLane, List.range_succ, List.map_append, List.map_singleton, xorAll_concat, ← BitVec.xor_assoc]
  exact gfadd_gfmul c.poly_bit8 _ _ _

/-- The closed form over `m` blocks reads the first byte and the bytes of those blocks. -/
theorem closedLane_congr (c : Config) {d d' : List Byte} {m : Nat} (first : d.getD 0 0 = d'.getD 0 0)
    (blocks : ∀ q, q < 64 * m → d.getD q 0 = d'.getD q 0) (i : Fin 32) : closedLane c d m i = closedLane c d' m i := by
  have bytes : ((List.range m).map fun k => d.getD (64 * k + (c.perm[i.val]).val) 0) =
      (List.range m).map fun k => d'.getD (64 * k + (c.perm[i.val]).val) 0 :=
    List.map_congr_left fun k mem => blocks _ (by have := List.mem_range.mp mem; omega)
  rw [closedLane, closedLane, first, bytes]

/-- Folding block `m` into the closed form over the blocks before it gives the closed form over one block more. -/
theorem fold_getElem_eq_closedLane (c : Config) {d : List Byte} {m : Nat} {h : Vector Byte 32} {p : Vector Byte 64}
    (state : ∀ i : Fin 32, h[i] = closedLane c d m i) (block : ∀ (j : Nat) (hj : j < 64), p[j] = d.getD (64 * m + j) 0)
    (i : Fin 32) : (fold c h p)[i] = closedLane c d (m + 1) i := by
  rw [closedLane_succ, ← state i, ← block _ (c.perm[i.val]).isLt]
  exact fold_getElem c h p i i.isLt

/-! ## The context in the course of a stream -/

/-- The context after the first `k` bytes of the stream `d`: the counter is `k`, the buffer holds the bytes behind the last
complete block, and `H` is the closed form over the complete blocks. The seed reads the first byte of `d` also where `k` is 0,
since WRITE seeds before its loop. -/
structure Accumulator.HoldsAfter (c : Config) (d : List Byte) (k : Nat) (a : Accumulator) : Prop where
  len : a.len = BitVec.ofNat 64 k
  buffer : ∀ (j : Nat) (hj : j < 64), j < k % 64 → a.x[j] = d.getD (64 * (k / 64) + j) 0
  state : ∀ i : Fin 32, stateByte a.h i = closedLane c d (k / 64) i

section
variable {c : Config} {d : List Byte} {k : Nat} {a : Accumulator}

/-- 64 divides 2^64, so `NX` is `k mod 64` also where `LEN` has wrapped. -/
theorem Accumulator.nx_of_len (len : a.len = BitVec.ofNat 64 k) : a.nx = k % 64 := by
  rw [Accumulator.nx, len, BitVec.toNat_ofNat]
  omega

theorem Accumulator.s_getElem (a : Accumulator) (i : Fin 32) : a.s[i] = stateByte a.h i :=
  bytesOfWords_getElem a.h i i.isLt

theorem stateByte_wordsOfBytes (v : Vector Byte 32) (i : Fin 32) : stateByte (wordsOfBytes v) i = v[i] :=
  (bytesOfWords_getElem _ i i.isLt).symm.trans (by rw [bytesOfWords_wordsOfBytes]; rfl)

/-- The valid bytes are the last of `d` exactly where the buffer holds them one by one. -/
theorem Accumulator.valid_eq_drop_iff (len : a.len = BitVec.ofNat 64 d.length) :
    a.valid = d.drop (64 * (d.length / 64)) ↔
      ∀ (j : Nat) (hj : j < 64), j < d.length % 64 → a.x[j] = d.getD (64 * (d.length / 64) + j) 0 := by
  have nx := Accumulator.nx_of_len len
  have lengths : d.length - 64 * (d.length / 64) = d.length % 64 := by omega
  simp only [List.ext_getElem_iff, Accumulator.valid_length, List.length_drop, lengths, nx, true_and]
  simp only [Accumulator.valid, List.getElem_take, Vector.getElem_toList, List.getElem_drop]
  constructor
  · intro same j hj lt
    rw [same j lt lt, List.getD_eq_getElem]
  · intro same j lt _
    rw [same j (by omega) lt, List.getD_eq_getElem]

/-- The state invariant of R89 is that after all bytes of the stream, below the counter limit. -/
theorem Accumulator.holds_iff : a.holds c d ↔ d.length < 2 ^ 64 ∧ a.HoldsAfter c d d.length := by
  constructor
  · rintro ⟨limit, len, valid, state⟩
    exact ⟨limit, len, (Accumulator.valid_eq_drop_iff len).mp valid, state⟩
  · rintro ⟨limit, len, buffer, state⟩
    exact ⟨limit, len, (Accumulator.valid_eq_drop_iff len).mpr buffer, state⟩

/-! ## WRITE -/

/-- One turn of WRITE's loop takes in the next byte of the stream, and the block it completes is the stream's. -/
theorem Accumulator.HoldsAfter.ingest (held : a.HoldsAfter c d k) {b : Byte} (next : d.getD k 0 = b) :
    (a.ingest c b).HoldsAfter c d (k + 1) := by
  have nx := Accumulator.nx_of_len held.len
  have stored (j : Nat) (hj : j < 64) (le : j ≤ k % 64) :
      (a.x.set a.nx b a.nx_lt)[j] = d.getD (64 * (k / 64) + j) 0 := by
    rw [Vector.getElem_set, nx]
    split
    · next last => rw [← last, Nat.div_add_mod, next]
    · exact held.buffer j hj (by omega)
  refine ⟨?len, ?buffer, ?state⟩
  case len => exact (a.ingest_len c b).trans (by rw [held.len, BitVec.ofNat_add]; rfl)
  case buffer =>
    intro j hj lt
    have same_block : (k + 1) / 64 = k / 64 := by omega
    simp only [Accumulator.ingest_x, same_block]
    exact stored j hj (by omega)
  case state =>
    intro i
    rw [Accumulator.ingest_h]
    split
    · have next_block : (k + 1) / 64 = k / 64 + 1 := by omega
      rw [stateByte_wordsOfBytes, next_block]
      exact fold_getElem_eq_closedLane c (fun i => (a.s_getElem i).trans (held.state i)) (fun j hj => stored j hj (by omega)) i
    · have same_block : (k + 1) / 64 = k / 64 := by omega
      rw [same_block, held.state]

/-- WRITE's loop takes in the rest of the stream. -/
theorem Accumulator.HoldsAfter.foldl_ingest (e : List Byte) :
    ∀ {d : List Byte} {a : Accumulator}, a.HoldsAfter c (d ++ e) d.length →
      (e.foldl (Accumulator.ingest c) a).HoldsAfter c (d ++ e) (d ++ e).length := by
  induction e with
  | nil => exact fun held => by simpa using held
  | cons b e ih =>
    intro d a held
    rw [List.append_cons] at held ⊢
    refine ih ?_
    rw [List.length_append]
    exact held.ingest (by simp)

/-- Before the loop WRITE has the closed form of the longer stream: the seed where nothing has been written, else the state as
it is. -/
theorem Accumulator.holds.seedFirst (held : a.holds c d) (e : List Byte) :
    (a.seedFirst c e).HoldsAfter c (d ++ e) d.length := by
  obtain ⟨limit, after_d⟩ := Accumulator.holds_iff.mp held
  cases e with
  | nil => rwa [List.append_nil]
  | cons b e =>
    cases d with
    | nil =>
      have fresh : a.isFresh = true := beq_iff_eq.mpr after_d.len
      rw [Accumulator.seedFirst, if_pos fresh]
      refine ⟨after_d.len, fun j _ lt => absurd lt (Nat.not_lt_zero j), fun i => ?_⟩
      rw [Accumulator.setS_h, stateByte_wordsOfBytes]
      exact (seed_getElem c b i i.isLt).trans (closedLane_zero c (b :: e) i).symm
    | cons b' d =>
      have counted : a.len ≠ 0 := fun zero => by
        have no_bytes := congrArg BitVec.toNat (after_d.len.symm.trans zero)
        rw [BitVec.toNat_ofNat, Nat.mod_eq_of_lt limit] at no_bytes
        exact absurd no_bytes (Nat.succ_ne_zero _)
      have same (q : Nat) (lt : q < (b' :: d).length) : (b' :: d).getD q 0 = (b' :: d ++ b :: e).getD q 0 :=
        (List.getD_append _ _ 0 q lt).symm
      rw [Accumulator.seedFirst_of_len_ne_zero c (b :: e) counted]
      refine ⟨after_d.len, fun j hj lt => ?_, fun i => ?_⟩
      · exact (after_d.buffer j hj lt).trans (same _ (by omega))
      · exact (after_d.state i).trans (closedLane_congr c (same 0 (Nat.succ_pos _)) (fun q lt => same q (by omega)) i)

/-- WRITE below the counter limit keeps the state invariant of R89. -/
theorem Accumulator.holds.write (held : a.holds c d) (e : List Byte) (limit : d.length + e.length < 2 ^ 64) :
    (a.write c e).holds c (d ++ e) :=
  Accumulator.holds_iff.mpr ⟨by rwa [List.length_append], (held.seedFirst e).foldl_ingest e⟩

/-! ## The fresh context and the digest -/

theorem Accumulator.fresh_holds (c : Config) : Accumulator.fresh.holds c [] := by
  refine Accumulator.holds_iff.mpr ⟨by decide, rfl, fun j _ lt => absurd lt (Nat.not_lt_zero j), fun i => ?_⟩
  have zero : stateByte Accumulator.fresh.h i = 0 := by revert i; decide
  exact zero.trans ((zero_gfmul c _).symm.trans (closedLane_zero c [] i).symm)

theorem absorb_holds (c : Config) (d : List Byte) (limit : d.length < 2 ^ 64) : (absorb c d).holds c d :=
  (Accumulator.fresh_holds c).write d (by simpa using limit)

/-- The padded buffer is the last block of the stream, read as followed by zeros. -/
theorem Accumulator.holds.padblock_getElem (held : a.holds c d) (j : Nat) (hj : j < 64) :
    (padblock a.x a.nx)[j] = d.getD (64 * (d.length / 64) + j) 0 := by
  obtain ⟨-, after_d⟩ := Accumulator.holds_iff.mp held
  rw [Machine.padblock_getElem, Accumulator.nx_of_len after_d.len]
  split
  · next lt => exact after_d.buffer j hj lt
  · exact (List.getD_eq_default _ _ (by omega)).symm

/-- The digest of a context is the closed form over all blocks of the bytes written, the incomplete one included. -/
theorem Accumulator.holds.digest_getElem (held : a.holds c d) (i : Fin 32) :
    (a.digest c)[i] = closedLane c d ((d.length + 63) / 64) i := by
  obtain ⟨-, after_d⟩ := Accumulator.holds_iff.mp held
  have nx := Accumulator.nx_of_len after_d.len
  have state (i : Fin 32) : a.s[i] = closedLane c d (d.length / 64) i := (a.s_getElem i).trans (after_d.state i)
  unfold Accumulator.digest
  split
  · have whole : (d.length + 63) / 64 = d.length / 64 := by omega
    rw [whole, state]
  · have padded : (d.length + 63) / 64 = d.length / 64 + 1 := by omega
    rw [padded]
    exact fold_getElem_eq_closedLane c state held.padblock_getElem i

end

/-- Settles O35: the digest of the context that WRITE leaves, also where the input is empty. -/
theorem digestHasTheClosedForm : Obligations.DigestHasTheClosedForm := by
  unfold Obligations.DigestHasTheClosedForm
  exact fun c d _ limit => (absorb_holds c d limit).digest_getElem

end Sys2Proof.Machine
end

section
/-! The accumulator statements (42_accumulator.md R60 to R65). A turn of WRITE's loop lengthens the valid bytes by one, or folds
them as the block they have become; so the loop cuts the valid bytes followed by the payload into the blocks it folds and fewer
than 64 bytes behind them, and these blocks are the complete blocks of the stream. -/

namespace Sys2Proof.Machine

/-! ## The complete blocks of a stream -/

theorem completeBlocks_of_short {d : List Byte} (short : d.length < 64) : completeBlocks d = [] := by
  rw [completeBlocks, Nat.div_eq_of_lt short]
  rfl

theorem completeBlocks_block_append (p : Vector Byte 64) (d : List Byte) :
    completeBlocks (p.toList ++ d) = p :: completeBlocks d := by
  have count : (p.toList ++ d).length / 64 = d.length / 64 + 1 := by simp
  rw [completeBlocks, count, List.range_succ_eq_map, List.map_cons, List.map_map]
  refine congrArg₂ List.cons ?first (List.map_congr_left fun k _ => ?rest)
  case first =>
    ext1 j hj
    simp [List.getElem?_append_left]
  case rest =>
    ext1 j hj
    have behind : 64 * (k + 1) + j = p.toList.length + (64 * k + j) := by simp; omega
    simp only [Function.comp_apply, Vector.getElem_ofFn, Nat.succ_eq_add_one, behind]
    rw [List.getD_append_right _ _ _ _ (Nat.le_add_right _ _), Nat.add_sub_cancel_left]

section
variable (blocks : List (Vector Byte 64)) {rest : List Byte} (short : rest.length < 64)
include short

/-- A stream cut into blocks and a short rest has these complete blocks. -/
theorem completeBlocks_flatMap_append : completeBlocks (blocks.flatMap Vector.toList ++ rest) = blocks := by
  induction blocks with
  | nil => exact completeBlocks_of_short short
  | cons p blocks ih => rw [List.flatMap_cons, List.append_assoc, completeBlocks_block_append, ih]

theorem drop_flatMap_append :
    (blocks.flatMap Vector.toList ++ rest).drop (64 * ((blocks.flatMap Vector.toList ++ rest).length / 64)) = rest := by
  have length_blocks : (blocks.flatMap Vector.toList).length = 64 * blocks.length := by simp [Nat.mul_comm]
  have whole : 64 * ((blocks.flatMap Vector.toList ++ rest).length / 64) = (blocks.flatMap Vector.toList).length := by
    rw [List.length_append, length_blocks]
    omega
  rw [whole, List.drop_left]

end

/-! ## WRITE -/

/-- The bytes up to the one that a turn stores: the valid bytes and this one. -/
theorem Accumulator.take_set_nx (a : Accumulator) (b : Byte) :
    (a.x.set a.nx b a.nx_lt).toList.take (a.nx + 1) = a.valid ++ [b] := by
  have stored : a.nx < (a.x.toList.set a.nx b).length := by simp
  rw [Vector.toList_set, List.take_succ_eq_append_getElem stored, List.take_set_of_le (Nat.le_refl _),
    List.getElem_set_self]
  rfl

/-- One turn of WRITE's loop: the byte joins the valid bytes, or completes their block, which is folded. -/
theorem Accumulator.ingest_cases (c : Config) (a : Accumulator) (b : Byte) :
    ((a.ingest c b).valid = a.valid ++ [b] ∧ (a.ingest c b).s = a.s) ∨
    ∃ p : Vector Byte 64, p.toList = a.valid ++ [b] ∧ (a.ingest c b).valid = [] ∧ (a.ingest c b).s = fold c a.s p := by
  have below := a.nx_lt
  have stored := a.take_set_nx b
  by_cases complete : (a.nx + 1) % 64 = 0
  · have full : a.nx + 1 = 64 := by omega
    refine .inr ⟨a.x.set a.nx b a.nx_lt, ?block, ?valid, ?state⟩
    case block => rwa [full, List.take_of_length_le (by simp)] at stored
    case valid => rw [Accumulator.valid, Accumulator.ingest_nx, complete, List.take_zero]
    case state => rw [Accumulator.s, Accumulator.ingest_h, if_pos complete, bytesOfWords_wordsOfBytes]
  · have part : (a.nx + 1) % 64 = a.nx + 1 := by omega
    refine .inl ⟨?valid, ?state⟩
    case valid => rw [Accumulator.valid, Accumulator.ingest_nx, Accumulator.ingest_x, part, stored]
    case state => rw [Accumulator.s, Accumulator.ingest_h, if_neg complete, Accumulator.s]

/-- WRITE's loop folds blocks off the head of the valid bytes followed by the payload, and keeps what is behind them. -/
theorem Accumulator.foldl_ingest_blocks (c : Config) (d : List Byte) (a : Accumulator) :
    ∃ blocks : List (Vector Byte 64),
      a.valid ++ d = blocks.flatMap Vector.toList ++ (d.foldl (Accumulator.ingest c) a).valid ∧
      (d.foldl (Accumulator.ingest c) a).s = blocks.foldl (fold c) a.s := by
  induction d generalizing a with
  | nil => exact ⟨[], List.append_nil _, rfl⟩
  | cons b d ih =>
    obtain ⟨blocks, stream, state⟩ := ih (a.ingest c b)
    rw [List.foldl_cons]
    obtain ⟨joined, kept⟩ | ⟨p, block, emptied, folded⟩ := a.ingest_cases c b
    · rw [joined, ← List.append_cons] at stream
      exact ⟨blocks, stream, by rw [state, kept]⟩
    · rw [emptied, List.nil_append] at stream
      refine ⟨p :: blocks, ?_, by rw [state, folded, List.foldl_cons]⟩
      rw [List.flatMap_cons, block, List.append_assoc, ← stream, ← List.append_cons]

@[simp] theorem Accumulator.seedFirst_valid (c : Config) (d : List Byte) (a : Accumulator) :
    (a.seedFirst c d).valid = a.valid := by
  cases d with
  | nil => rfl
  | cons b d => rw [Accumulator.seedFirst]; split <;> rfl

/-- The state bytes with which WRITE's loop begins where there is a payload. -/
theorem Accumulator.seedFirst_cons_s (c : Config) (b : Byte) (d : List Byte) (a : Accumulator) :
    (a.seedFirst c (b :: d)).s = if a.len = 0 then seed c b else a.s := by
  rw [Accumulator.seedFirst, apply_ite Accumulator.s, Accumulator.setS_s]
  exact if_congr beq_iff_eq rfl rfl

/-- WRITE keeps the rest behind the complete blocks. -/
theorem Accumulator.write_valid (c : Config) (d : List Byte) (a : Accumulator) :
    (a.write c d).valid = (a.valid ++ d).drop (64 * ((a.valid ++ d).length / 64)) := by
  obtain ⟨blocks, stream, -⟩ := (a.seedFirst c d).foldl_ingest_blocks c d
  rw [Accumulator.seedFirst_valid] at stream
  rw [stream]
  exact (drop_flatMap_append blocks (by simp)).symm

/-- WRITE folds the complete blocks into the state bytes that its seed leaves. -/
theorem Accumulator.write_s (c : Config) (d : List Byte) (a : Accumulator) :
    (a.write c d).s = (completeBlocks (a.valid ++ d)).foldl (fold c) (a.seedFirst c d).s := by
  obtain ⟨blocks, stream, state⟩ := (a.seedFirst c d).foldl_ingest_blocks c d
  rw [Accumulator.seedFirst_valid] at stream
  rw [stream, completeBlocks_flatMap_append blocks (by simp)]
  exact state

/-! ## Responses -/

/-- The response word of a command that completes, byte by byte (30_encoding.md R32). -/
theorem responseWord_ok (n : Nat) :
    responseWord .ok n = [0, BitVec.ofNat 8 (n / 65536), BitVec.ofNat 8 (n / 256), BitVec.ofNat 8 n] := by
  simp [responseWord, beBytes, Status.code, Nat.shiftRight_eq_div_pow]

/-- A step on a command that only answers: the word is taken and the response sent. -/
theorem step_of_answer {s : State} {i : Instr} {rest : List Byte} {v : Nat} {p : List Byte} (idle : s.idle)
    (wf : i.wellFormed = true) (input : s.input = encode i ++ rest) (answers : ∀ u, exec i u = .next (u.respond .ok v p)) :
    step s = .next { s with input := rest, output := s.output ++ (responseWord .ok v ++ p) } := by
  have ⟨pending, _⟩ := idle
  rw [step_of_encode idle wf input, answers, pending]
  rfl

/-! ## The digest -/

/-- The digest lane by lane (42_accumulator.md R61). -/
theorem Accumulator.digest_getElem (c : Config) (a : Accumulator) (i : Fin 32) :
    (a.digest c)[i] =
      if a.nx = 0 then stateByte a.h i
      else stateByte a.h i ^^^
        gfmul c.poly (if (c.perm[i.val]).val < a.nx then a.x[c.perm[i.val]] else 0) c.coef[i.val] := by
  unfold Accumulator.digest
  split
  · exact a.s_getElem i
  · rw [← a.s_getElem i]
    exact (fold_getElem c a.s _ i i.isLt).trans (by rw [padblock_getElem]; rfl)

/-- The bytes of a vector in index order. -/
theorem toList_eq_map_finRange {n : Nat} (v : Vector Byte n) : v.toList = (List.finRange n).map fun i => v[i] := by
  rw [← List.ofFn_eq_map, ← Vector.toList_ofFn]
  exact congrArg Vector.toList Vector.ofFn_getElem.symm

/-! ## The statements -/

/-- Settles O29: WRITE's loop cuts the stream into the blocks it folds and the valid bytes it leaves. -/
theorem writeIngestsItsPayloadBlockByBlock : Obligations.WriteIngestsItsPayloadBlockByBlock := by
  unfold Obligations.WriteIngestsItsPayloadBlockByBlock
  rintro n s d rest rfl input
  refine ⟨_, exec_write_of_append input, rfl, rfl, rfl, ?output, s.acc.write_len Config.chip d, ?valid, ?state⟩
  case output => rw [State.respond_output, responseWord_ok, List.append_nil]; rfl
  case valid => rw [← List.length_append]; exact s.acc.write_valid Config.chip d
  case state =>
    refine (s.acc.write_s Config.chip d).trans (congrArg (List.foldl (fold Config.chip) · _) ?_)
    cases d with
    | nil => rfl
    | cons b d => exact s.acc.seedFirst_cons_s Config.chip b d

/-- Settles O30: the empty payload heads every command stream, and WRITE of it leaves the context. -/
theorem emptyWriteChangesNothing : Obligations.EmptyWriteChangesNothing := by
  unfold Obligations.EmptyWriteChangesNothing
  exact fun s => exec_write_of_append (List.nil_append s.input).symm

/-- Settles O31: the digest, lane by lane, in index order. -/
theorem sumAnswersTheDigestAndWritesNoState : Obligations.SumAnswersTheDigestAndWritesNoState := by
  unfold Obligations.SumAnswersTheDigestAndWritesNoState
  intro s
  have lanes := toList_eq_map_finRange (s.acc.digest Config.chip)
  simp only [Accumulator.digest_getElem] at lanes
  rw [← lanes]
  rfl

/-- Settles O32: what is left in `X` is no part of the logical state where the counter is 0. -/
theorem resetCommandRestoresTheFreshState : Obligations.ResetCommandRestoresTheFreshState := by
  unfold Obligations.ResetCommandRestoresTheFreshState
  intro s
  have cleared := s.acc.clear_logical
  exact ⟨_, rfl, cleared, cleared.trans rfl, rfl, rfl, rfl, rfl, rfl, rfl⟩

/-- Settles O33: each is a response with a constant, and the words of R63 and R64 are their encodings. -/
theorem sizeAndBlocksizeAreConstant : Obligations.SizeAndBlocksizeAreConstant := by
  unfold Obligations.SizeAndBlocksizeAreConstant
  refine ⟨fun s => ⟨rfl, rfl⟩, fun s rest idle => ⟨fun input => ?size, fun input => ?blocksize⟩⟩
  case size => exact step_of_answer (i := .size) idle rfl input fun _ => rfl
  case blocksize => exact step_of_answer (i := .blocksize) idle rfl input fun _ => rfl

end Sys2Proof.Machine
end

section
/-! SUPPORT. The fields of the blob (20_memory.md R23). A big-endian number has one sequence of digits of a given length, so
writing it back gives the bytes it was read from (R21); and MARSHAL and UNMARSHAL are said by the slices of the blob. -/

namespace Sys2Proof

/-! ## Big-endian numbers -/

/-- The bytes are the digits to the base 256, the last one the lowest. -/
theorem beNat_eq_ofDigits (bs : List Byte) : beNat bs = Nat.ofDigits 256 (bs.map BitVec.toNat).reverse := by
  induction bs using List.reverseRecOn with
  | nil => rfl
  | append_singleton bs b ih =>
    have last : beNat [b] = b.toNat := by simp [beNat]
    rw [beNat_append, ih, last, List.map_append, List.reverse_append]
    simp only [List.map_cons, List.map_nil, List.reverse_singleton, List.singleton_append, Nat.ofDigits_cons, List.length_singleton]
    omega

theorem digit_lt_256 (bs : List Byte) : ∀ v ∈ (bs.map BitVec.toNat).reverse, v < 256 := by
  simp only [List.mem_reverse, List.mem_map]
  rintro _ ⟨b, -, rfl⟩
  exact b.isLt

theorem beNat_lt (bs : List Byte) : beNat bs < 256 ^ bs.length := by
  rw [beNat_eq_ofDigits]
  simpa using Nat.ofDigits_lt_base_pow_length (by decide) (digit_lt_256 bs)

/-- Sequences of one length are determined by the number they are read as. -/
theorem beNat_inj {as bs : List Byte} (len : as.length = bs.length) (same : beNat as = beNat bs) : as = bs := by
  rw [beNat_eq_ofDigits, beNat_eq_ofDigits] at same
  have digits := Nat.ofDigits_inj_of_len_eq (by decide) (by simpa using len) (digit_lt_256 as) (digit_lt_256 bs) same
  exact List.map_injective_iff.mpr BitVec.toNat_injective (List.reverse_injective digits)

/-- Writing back the number read from a sequence gives the sequence. -/
theorem beBytes_beNat (bs : List Byte) : beBytes bs.length (beNat bs) = bs :=
  beNat_inj (beBytes_length ..) ((beNat_beBytes ..).trans (Nat.mod_eq_of_lt (beNat_lt bs)))

/-- A field of a blob, written back from the word of its width that it is read into. -/
theorem beBytes_memRead {b : List Byte} {addr k : Nat} (fits : addr + k ≤ b.length) :
    beBytes k (BitVec.ofNat (8 * k) (memRead b addr k)).toNat = (b.drop addr).take k := by
  have len : ((b.drop addr).take k).length = k := by simp; omega
  have lt := beNat_lt ((b.drop addr).take k)
  have back := beBytes_beNat ((b.drop addr).take k)
  rw [len] at lt back
  have width : 2 ^ (8 * k) = 256 ^ k := pow_mul 2 8 k
  rw [BitVec.toNat_ofNat, width, memRead, Nat.mod_eq_of_lt lt, back]

/-- Byte `r` of a big-endian image. -/
theorem beBytes_getElem? (k v : Nat) {r : Nat} (lt : r < k) :
    (beBytes k v)[r]? = some (BitVec.ofNat 8 (v >>> (8 * (k - 1 - r)))) := by
  induction k generalizing r with
  | zero => cases lt
  | succ k ih =>
    cases r with
    | zero => rfl
    | succ r =>
      have shift : k + 1 - 1 - (r + 1) = k - 1 - r := by omega
      rw [beBytes, List.getElem?_cons_succ, ih (by omega), shift]

end Sys2Proof

namespace Sys2Proof.Machine

/-! ## What MARSHAL writes -/

/-- A word of `H` is sent as its state bytes. -/
theorem beBytes_word_eq_stateBytes (h : Vector Word 8) (j : Nat) (hj : j < 8) :
    beBytes 4 h[j].toNat = List.ofFn fun r : Fin 4 => stateByte h ⟨4 * j + r.val, by omega⟩ := by
  obtain ⟨byte0, byte1, byte2, byte3⟩ := stateByte_of_word h j hj
  rw [beBytes_word, ← byte0, ← byte1, ← byte2, ← byte3]
  rfl

/-- The state words of the blob, one after the other, are the state bytes. -/
theorem flatMap_beBytes_words (h : Vector Word 8) : h.toList.flatMap (fun w => beBytes 4 w.toNat) = (bytesOfWords h).toList := by
  have words : h.toList = List.ofFn fun j : Fin 8 => h[j] :=
    (congrArg Vector.toList Vector.ofFn_getElem.symm).trans Vector.toList_ofFn
  rw [words, bytesOfWords, Vector.toList_ofFn, List.ofFn_mul' (m := 4) (n := 8), List.flatMap, List.map_ofFn]
  exact congrArg (fun f => (List.ofFn f).flatten) (funext fun j => beBytes_word_eq_stateBytes h j j.isLt)

/-- The padded buffer is its valid bytes with zeros behind them. -/
theorem Accumulator.padblock_toList (a : Accumulator) :
    (padblock a.x a.nx).toList = a.valid ++ List.replicate (64 - a.nx) 0 := by
  have below := a.nx_lt
  refine List.ext_getElem (by simp; omega) fun j _ _ => ?_
  rw [Vector.getElem_toList, padblock_getElem, List.getElem_append]
  by_cases valid : j < a.nx
  · have stored : j < a.valid.length := a.valid_length.symm ▸ valid
    rw [if_pos valid, dif_pos stored]
    simp only [Accumulator.valid, List.getElem_take, Vector.getElem_toList]
  · have behind : ¬ j < a.valid.length := a.valid_length.symm ▸ valid
    rw [if_neg valid, dif_neg behind, List.getElem_replicate]

/-- The blob is the tag, the state bytes, the padded buffer and the counter (43_codec.md R70). -/
theorem Accumulator.marshal_eq (a : Accumulator) :
    a.marshal = tag ++ a.s.toList ++ (padblock a.x a.nx).toList ++ beBytes 8 a.len.toNat := by
  rw [Accumulator.marshal, flatMap_beBytes_words, Accumulator.s]

/-- Byte `i` of the field `q` that stands behind the fields `p` and before `r`. -/
theorem getElem?_of_offset {p q : List Byte} (r : List Byte) {offset i : Nat} (len : p.length = offset) (lt : i < q.length) :
    (p ++ q ++ r)[offset + i]? = q[i]? := by
  subst len
  rw [List.append_assoc, List.getElem?_append_right (Nat.le_add_right _ _), Nat.add_sub_cancel_left,
    List.getElem?_append_left lt]

/-- Byte `k` of the counter as it is sent. -/
theorem beBytes_len_getElem? (len : BitVec 64) (k : Fin 8) :
    (beBytes 8 len.toNat)[k.val]? = some ((len >>> (56 - 8 * k.val)).setWidth 8) := by
  have shift : 8 * (8 - 1 - k.val) = 56 - 8 * k.val := by omega
  rw [beBytes_getElem? 8 _ k.isLt, shift, ← BitVec.toNat_ushiftRight]
  rfl

theorem Accumulator.s_getElem? (a : Accumulator) (i : Fin 32) : a.s.toList[i.val]? = some (stateByte a.h i) := by
  have below : i.val < a.s.toList.length := by simp
  rw [List.getElem?_eq_getElem below, Vector.getElem_toList]
  exact congrArg some (a.s_getElem i)

/-! ## What UNMARSHAL loads -/

section
variable {b : List Byte} (len : b.length = blobSize)
include len

/-- Word `j` of the state a blob describes, as it is sent. -/
theorem Accumulator.beBytes_ofBlob_word {j : Nat} (hj : j < 8) :
    beBytes 4 (Accumulator.ofBlob b).h[j].toNat = (b.drop (4 + 4 * j)).take 4 := by
  have fits : 4 + 4 * j + 4 ≤ b.length := by rw [len, blobSize]; omega
  rw [← beBytes_memRead fits]
  simp [Accumulator.ofBlob]

/-- The state bytes a blob describes. -/
theorem Accumulator.ofBlob_stateByte (i : Fin 32) : some (stateByte (Accumulator.ofBlob b).h i) = b[4 + i.val]? := by
  obtain ⟨i, hi⟩ := i
  obtain ⟨j, r, hr, rfl⟩ : ∃ j r, r < 4 ∧ i = 4 * j + r := ⟨i / 4, i % 4, by omega, by omega⟩
  have hj : j < 8 := by omega
  have bytes := (beBytes_word_eq_stateBytes _ j hj).symm.trans (Accumulator.beBytes_ofBlob_word len hj)
  have byte := congrArg (·[r]?) bytes
  simpa only [List.getElem?_ofFn, hr, dif_pos, List.getElem?_take_of_lt hr, List.getElem?_drop, Nat.add_assoc] using byte

theorem Accumulator.ofBlob_s : (Accumulator.ofBlob b).s.toList = (b.drop 4).take 32 := by
  refine List.ext_getElem? fun i => ?_
  by_cases hi : i < 32
  · rw [Accumulator.s_getElem? _ ⟨i, hi⟩, Accumulator.ofBlob_stateByte len, List.getElem?_take_of_lt hi, List.getElem?_drop]
  · rw [List.getElem?_eq_none (by simpa using hi), List.getElem?_eq_none (by simp; omega)]

/-- The buffer a blob describes. -/
theorem Accumulator.ofBlob_x : (Accumulator.ofBlob b).x.toList = (b.drop 36).take 64 := by
  refine List.ext_getElem (by simp [len, blobSize]) fun j hj _ => ?_
  have in_buffer : j < 64 := by simpa using hj
  have fits : 36 + j < b.length := by rw [len, blobSize]; omega
  have field : (b.drop (36 + j)).take 1 = [b[36 + j]] := List.take_one_drop_eq_of_lt_length fits
  simp [Accumulator.ofBlob, memRead, field, beNat]

/-- The valid bytes of the context a blob describes. -/
theorem Accumulator.ofBlob_valid :
    (Accumulator.ofBlob b).valid = (b.drop 36).take (Accumulator.ofBlob b).nx := by
  rw [Accumulator.valid, Accumulator.ofBlob_x len, List.take_take, Nat.min_eq_left (Nat.le_of_lt (Accumulator.nx_lt _))]

/-- The counter a blob describes, as it is sent. -/
theorem Accumulator.beBytes_ofBlob_len : beBytes 8 (Accumulator.ofBlob b).len.toNat = b.drop 100 := by
  have fits : 100 + 8 ≤ b.length := by rw [len, blobSize]
  exact (beBytes_memRead fits).trans (List.take_of_length_le (by simp [len, blobSize]))

end

/-- UNMARSHAL of a blob that it accepts, with the blob on the command stream (43_codec.md R71). -/
theorem exec_unmarshal_of_accepted {s : State} {b rest : List Byte} (len : b.length = blobSize) (tagged : b.take 4 = tag)
    (input : s.input = b ++ rest) :
    exec (.unmarshal 108) s = .next (((s.withInput rest).withAcc (Accumulator.ofBlob b)).respond .ok 0 []) := by
  have runs := exec_unmarshal_of_append input
  rw [len] at runs
  refine runs.trans (congrArg Host.Outcome.next ?_)
  obtain ⟨wrong, -⟩ | ⟨-, wrong, -⟩ | ⟨-, -, loads⟩ := loadBlob_cases b (s.withInput rest)
  · exact absurd tagged wrong
  · exact absurd len wrong
  · exact loads

end Sys2Proof.Machine
end

section
/-! The codec statements (43_codec.md R70 to R72): what MARSHAL answers and UNMARSHAL loads, byte by byte, the one after the
other, and the context whose counter is 0 and whose state is not. -/

namespace Sys2Proof.Machine

/-! ## A context with counter 0 -/

/-- WRITE of a payload that finds the counter 0 does not read the state: its seed overwrites it. -/
theorem Accumulator.write_clear (c : Config) {a : Accumulator} (zero : a.len = 0) {d : List Byte} (ne : d ≠ []) :
    a.clear.write c d = a.write c d := by
  obtain ⟨b, d, rfl⟩ := List.exists_cons_of_ne_nil ne
  have seeded (u : Accumulator) (fresh : u.len = 0) : u.seedFirst c (b :: d) = u.setS (seed c b) :=
    if_pos (beq_iff_eq.mpr fresh)
  have same : a.clear.setS (seed c b) = a.setS (seed c b) := by
    rw [Accumulator.setS, Accumulator.setS, Accumulator.clear, zero]
  rw [Accumulator.write, Accumulator.write, seeded a.clear rfl, seeded a zero, same]

/-- Settles O44: the buffer is empty, so SUM answers the state bytes; the seed overwrites them, so the payload is written as
after RESET. -/
theorem counterZeroContextForgetsItsStateAtTheNextWrite : Obligations.CounterZeroContextForgetsItsStateAtTheNextWrite := by
  unfold Obligations.CounterZeroContextForgetsItsStateAtTheNextWrite
  intro c a zero
  have empty : a.nx = 0 := by rw [Accumulator.nx, zero]; rfl
  refine ⟨if_pos empty, fun d ne => ?_⟩
  rw [← Accumulator.write_clear c zero ne]
  exact Accumulator.write_congr c d a.clear_logical

/-! ## MARSHAL and UNMARSHAL -/

/-- Settles O45: each field is found behind the fields before it. -/
theorem marshalAnswersTheBlob : Obligations.MarshalAnswersTheBlob := by
  unfold Obligations.MarshalAnswersTheBlob
  intro s
  refine ⟨s.acc.marshal, rfl, s.acc.marshal_length, rfl, fun i => ?state, fun j => ?buffer, fun k => ?counter⟩
  case state =>
    rw [Accumulator.marshal_eq, List.append_assoc, getElem?_of_offset _ (by simp [tag]) (by simp), s.acc.s_getElem?]
  case buffer =>
    rw [Accumulator.marshal_eq, getElem?_of_offset _ (by simp [tag]) (by simp), Vector.getElem?_toList,
      Vector.getElem?_eq_getElem j.isLt, padblock_getElem]
    rfl
  case counter =>
    rw [Accumulator.marshal_eq, ← List.append_nil (_ ++ _), getElem?_of_offset _ (by simp [tag]) (by simp), beBytes_len_getElem?]

/-- Settles O46: the fields of the loaded context are the slices of the blob. -/
theorem unmarshalLoadsTheContext : Obligations.UnmarshalLoadsTheContext := by
  unfold Obligations.UnmarshalLoadsTheContext
  intro s b rest len tagged input
  refine ⟨_, exec_unmarshal_of_accepted len tagged input, rfl, rfl, rfl, rfl, Accumulator.ofBlob_stateByte len, fun k => ?_,
    rfl, Accumulator.ofBlob_valid len⟩
  have byte := beBytes_len_getElem? (Accumulator.ofBlob b).len k
  rw [Accumulator.beBytes_ofBlob_len len, List.getElem?_drop] at byte
  exact byte.symm

/-- MARSHAL of the context loaded from an accepted blob, slice by slice (43_codec.md R72 (b)). -/
theorem Accumulator.marshal_ofBlob {b : List Byte} (len : b.length = blobSize) (tagged : b.take 4 = tag) :
    (Accumulator.ofBlob b).marshal =
      b.take (36 + (Accumulator.ofBlob b).nx) ++ List.replicate (64 - (Accumulator.ofBlob b).nx) 0 ++ b.drop 100 := by
  have head : b.take 36 = b.take 4 ++ (b.drop 4).take 32 := List.take_add (i := 4) (j := 32)
  rw [Accumulator.marshal_eq, Accumulator.padblock_toList, Accumulator.ofBlob_s len, Accumulator.ofBlob_valid len,
    Accumulator.beBytes_ofBlob_len len, ← tagged, ← head, List.take_add]
  simp only [List.append_assoc]

/-- Settles O49: the loaded context answers the slices it was loaded from, with the buffer behind the valid bytes zero. -/
theorem marshalCanonicalisesTheLoadedBlob : Obligations.MarshalCanonicalisesTheLoadedBlob := by
  unfold Obligations.MarshalCanonicalisesTheLoadedBlob
  intro s b rest len tagged input
  refine ⟨_, _, exec_unmarshal_of_accepted len tagged input, rfl, ?_⟩
  exact congrArg (fun blob => _ ++ ([0, 0, 0, 108] ++ blob)) (Accumulator.marshal_ofBlob len tagged)

end Sys2Proof.Machine
end

section
/-! SUPPORT. The commands that write no state (45_properties.md R87), each as one step of an idle block: a command that only
answers, an UNMARSHAL that fails, and an illegal word. -/

namespace Sys2Proof.Machine

/-- The six commands that only answer have a command word, and each is an `OK` response. -/
theorem exec_of_answer {i : Instr}
    (answers : i = .sum ∨ i = .marshal ∨ i = .size ∨ i = .blocksize ∨ (∃ a b, i = .gfadd a b) ∨ ∃ a b, i = .gfmul a b) :
    i.wellFormed = true ∧ ∀ s, ∃ v p, exec i s = .next (s.respond .ok v p) := by
  obtain rfl | rfl | rfl | rfl | ⟨a, b, rfl⟩ | ⟨a, b, rfl⟩ := answers <;> exact ⟨rfl, fun s => ⟨_, _, rfl⟩⟩

/-- UNMARSHAL of a rejected payload is an error. -/
theorem State.loadBlob_of_rejected (s : State) {b : List Byte} (rejected : rejectedBlob b) : ∃ e, s.loadBlob b = s.raise e := by
  obtain ⟨-, load⟩ | ⟨-, -, load⟩ | ⟨tagged, len, -⟩ := loadBlob_cases b s
  · exact ⟨_, load⟩
  · exact ⟨_, load⟩
  · exact absurd rejected (not_or.mpr ⟨not_not.mpr tagged, not_not.mpr len⟩)

/-- A word that matches no row of the opcode table is answered and dropped (60_exceptions.md R93). -/
theorem step_of_no_row {s : State} {w : Word} {rest : List Byte} (idle : s.idle)
    (no_row : ∀ r ∈ opcodeRows, w &&& r.1 ≠ r.2) (input : s.input = beBytes 4 w.toNat ++ rest) :
    step s = .next (s.illegalWord rest) := by
  cases decoded : decodeWord w with
  | ok i =>
    obtain ⟨r, mem, row⟩ := (exists_row_iff w).mpr ((legal_iff_legalFields w).mp ⟨i, decoded⟩)
    exact absurd row (no_row r mem)
  | error why => exact step_of_illegal idle (by rw [input, decode_word, decoded])

/-- A response of an idle block that has taken the bytes up to `rest` changes only the two streams. -/
theorem State.withInput_respond_of_idle {s : State} (idle : s.idle) (rest : List Byte) (st : Status) (v : Nat) (p : List Byte) :
    (s.withInput rest).respond st v p = { s with input := rest, output := s.output ++ (responseWord st v ++ p) } := by
  have ⟨pending, _⟩ := idle
  rw [pending]
  rfl

/-- SUM as the next command of an idle block (42_accumulator.md R61). -/
theorem step_of_sum {s : State} {rest : List Byte} (idle : s.idle) (input : s.input = encode .sum ++ rest) :
    step s = .next { s with
      input := rest
      output := s.output ++ ([0, 0, 0, 32] ++ (s.acc.digest Config.chip).toList) } :=
  (step_of_encode idle rfl input).trans (congrArg Host.Outcome.next (s.withInput_respond_of_idle idle rest .ok digestSize _))

/-- Every command that writes no state is taken from the command stream and ends in a response, and nothing else happens. -/
theorem step_of_readsOnly {m : List Byte} (reads : ReadsOnly m) {s : State} {rest : List Byte} (idle : s.idle)
    (input : s.input = m ++ rest) : ∃ st v p, step s = .next ((s.withInput rest).respond st v p) := by
  cases reads with
  | answer i answers =>
    obtain ⟨wf, responds⟩ := exec_of_answer answers
    obtain ⟨v, p, responds⟩ := responds (s.withInput rest)
    exact ⟨.ok, v, p, (step_of_encode idle wf input).trans responds⟩
  | failedUnmarshal b rejected fits =>
    have wf : (Instr.unmarshal b.length).wellFormed = true := decide_eq_true fits
    have loads : step s = exec (.unmarshal b.length) (s.withInput (b ++ rest)) :=
      step_of_encode idle wf (input.trans (List.append_assoc ..))
    obtain ⟨e, fails⟩ := (s.withInput rest).loadBlob_of_rejected rejected
    exact ⟨e, 0, [], loads.trans ((exec_unmarshal_of_append rfl).trans (congrArg Host.Outcome.next fails))⟩
  | illegal w no_row => exact ⟨.illegalCommand, 0, [], step_of_no_row idle no_row input⟩

end Sys2Proof.Machine
end

section
/-! The codec properties (45_properties.md R82, R85). The blob of a context has the fields of its logical state as slices, so
loading it gives that logical state back; and what follows depends on the logical state alone. -/

namespace Sys2Proof.Machine

/-! ## The round trip -/

/-- The eight bytes of the counter determine it. -/
theorem beBytes_len_inj {len len' : BitVec 64} (same : beBytes 8 len.toNat = beBytes 8 len'.toNat) : len = len' := by
  have value (u : BitVec 64) : beNat (beBytes 8 u.toNat) = u.toNat := (beNat_beBytes ..).trans (Nat.mod_eq_of_lt u.isLt)
  exact BitVec.eq_of_toNat_eq (by rw [← value len, same, value])

/-- Loading the blob of a context gives its logical state back (43_codec.md R72 (a)). -/
theorem Accumulator.ofBlob_marshal_logical (a : Accumulator) : (Accumulator.ofBlob a.marshal).logical = a.logical := by
  have blob := a.marshal_eq
  have state : (a.marshal.drop 4).take 32 = a.s.toList := by
    rw [blob, List.append_assoc, List.append_assoc, List.drop_left' (by simp [tag]), List.take_left' (by simp)]
  have buffer : a.marshal.drop 36 = a.valid ++ (List.replicate (64 - a.nx) 0 ++ beBytes 8 a.len.toNat) := by
    rw [blob, List.append_assoc, List.drop_left' (by simp [tag]), a.padblock_toList, List.append_assoc]
  have counter : a.marshal.drop 100 = beBytes 8 a.len.toNat := by rw [blob, List.drop_left' (by simp [tag])]
  have same_s : (Accumulator.ofBlob a.marshal).s = a.s :=
    Vector.toList_inj.mp ((Accumulator.ofBlob_s a.marshal_length).trans state)
  have same_h : (Accumulator.ofBlob a.marshal).h = a.h := by
    have words := congrArg wordsOfBytes same_s
    rwa [Accumulator.s, Accumulator.s, wordsOfBytes_bytesOfWords, wordsOfBytes_bytesOfWords] at words
  have same_len : (Accumulator.ofBlob a.marshal).len = a.len :=
    beBytes_len_inj ((Accumulator.beBytes_ofBlob_len a.marshal_length).trans counter)
  have same_nx : (Accumulator.ofBlob a.marshal).nx = a.nx := congrArg (fun len => len.toNat % 64) same_len
  have same_valid : (Accumulator.ofBlob a.marshal).valid = a.valid := by
    rw [Accumulator.ofBlob_valid a.marshal_length, same_nx, buffer, List.take_left' a.valid_length]
  rw [Accumulator.logical, same_h, same_valid, same_len, Accumulator.logical]

/-- UNMARSHAL of a blob that MARSHAL makes. -/
theorem exec_unmarshal_marshal {s : State} {a : Accumulator} {rest : List Byte} (input : s.input = a.marshal ++ rest) :
    exec (.unmarshal 108) s = .next (((s.withInput rest).withAcc (Accumulator.ofBlob a.marshal)).respond .ok 0 []) :=
  exec_unmarshal_of_accepted a.marshal_length rfl input

/-- Blocks that differ at most in the tail of `X` answer the same in any number of steps. -/
theorem State.agree.run (k : Nat) {s s' : State} (agree : s.agree s') :
    ∃ t t', run k s = .next t ∧ run k s' = .next t' ∧ t.agree t' := by
  induction k generalizing s s' with
  | zero => exact ⟨s, s', rfl, rfl, agree⟩
  | succ k ih =>
    obtain ⟨u, u', steps, steps', agree_u⟩ := tailOfTheBufferIsUnobservable s s' agree
    rw [run_succ k steps, run_succ k steps']
    exact ih agree_u

/-! ## The statements -/

/-- Fewer than four bytes are no tag. -/
theorem take_ne_tag_of_short {b : List Byte} (short : b.length < 4) : b.take 4 ≠ tag := fun tagged => by
  have four : (b.take 4).length = 4 := congrArg List.length tagged
  rw [List.length_take] at four
  omega

/-- Settles O47: the tag is tested first, and fewer than four bytes are no tag. -/
theorem unmarshalRejectsWrongTagThenWrongLength : Obligations.UnmarshalRejectsWrongTagThenWrongLength := by
  unfold Obligations.UnmarshalRejectsWrongTagThenWrongLength
  intro s b rest input
  have untagged (no_tag : b.length < 4 ∨ b.take 4 ≠ tag) : b.take 4 ≠ tag := no_tag.elim take_ne_tag_of_short id
  rw [exec_unmarshal_of_append input]
  obtain ⟨wrong_tag, load⟩ | ⟨tagged, wrong_length, load⟩ | ⟨tagged, len, -⟩ := loadBlob_cases b (s.withInput rest)
  · exact ⟨fun _ => congrArg Host.Outcome.next load, fun tagged => absurd tagged wrong_tag⟩
  · exact ⟨fun no_tag => absurd tagged (untagged no_tag), fun _ _ => congrArg Host.Outcome.next load⟩
  · exact ⟨fun no_tag => absurd tagged (untagged no_tag), fun _ wrong_length => absurd len wrong_length⟩

/-- Settles O48: the loaded context has the logical state of `s`, and the two blocks run in step. -/
theorem marshalledStateIsRestored : Obligations.MarshalledStateIsRestored := by
  unfold Obligations.MarshalledStateIsRestored
  intro s s' rest input
  have restored := s.acc.ofBlob_marshal_logical
  refine ⟨⟨_, rfl, rfl⟩, _, exec_unmarshal_marshal input, rfl, restored, fun k bs => ?_⟩
  have agree : State.agree { State.reset with acc := s.acc, input := bs }
      { State.reset with acc := Accumulator.ofBlob s.acc.marshal, input := bs } := ⟨restored.symm, rfl, rfl, rfl, rfl⟩
  obtain ⟨v, v', runs, runs', same, -, same_output, -⟩ := agree.run k
  exact ⟨v, v', runs, runs', same_output, same⟩

end Sys2Proof.Machine
end

section
/-! The state invariant (45_properties.md R89). It speaks of the logical state alone, so RESET and UNMARSHAL of a blob of such a
context keep it; WRITE keeps it by the closed form; and every other command, and every command that fails, leaves the context. -/

namespace Sys2Proof.Machine

theorem Accumulator.valid_congr {a a' : Accumulator} (same : a.logical = a'.logical) : a.valid = a'.valid :=
  congrArg (fun l => l.2.1) same

/-- The invariant depends on the logical state alone. -/
theorem Accumulator.holds.congr {c : Config} {d : List Byte} {a a' : Accumulator} (held : a.holds c d)
    (same : a.logical = a'.logical) : a'.holds c d := by
  obtain ⟨limit, len, valid, state⟩ := held
  exact ⟨limit, (Accumulator.len_congr same).symm.trans len, (Accumulator.valid_congr same).symm.trans valid,
    fun i => (congrArg (stateByte · i) (Accumulator.h_congr same).symm).trans (state i)⟩

/-- Settles O36: the fresh context, then command by command. -/
theorem runningStateIsTheClosedFormOfTheBytesWritten : Obligations.RunningStateIsTheClosedFormOfTheBytesWritten := by
  unfold Obligations.RunningStateIsTheClosedFormOfTheBytesWritten
  refine ⟨Accumulator.fresh_holds _, fun d s held => ⟨?write, ?reset, ?unmarshal, ?answer, ?failed, ?illegal⟩⟩
  case write => exact fun e rest input limit => ⟨_, exec_write_of_append input, held.write e limit⟩
  case reset => exact ⟨_, rfl, (Accumulator.fresh_holds _).congr s.acc.clear_logical.symm⟩
  case unmarshal =>
    exact fun a d' rest held' input => ⟨_, exec_unmarshal_marshal input, held'.congr a.ofBlob_marshal_logical.symm⟩
  case answer =>
    intro i answers
    obtain ⟨-, responds⟩ := exec_of_answer answers
    obtain ⟨v, p, responds⟩ := responds s
    exact ⟨_, responds, held⟩
  case failed =>
    intro b rest rejected input
    obtain ⟨e, fails⟩ := (s.withInput rest).loadBlob_of_rejected rejected
    exact ⟨_, (exec_unmarshal_of_append input).trans (congrArg Host.Outcome.next fails), held⟩
  case illegal =>
    intro b0 b1 b2 b3 rest idle input no_row
    have word : s.input = beBytes 4 (wordOfBytes b0 b1 b2 b3).toNat ++ rest := by rw [input, beBytes_wordOfBytes]; rfl
    exact ⟨_, step_of_no_row idle no_row word, held⟩

end Sys2Proof.Machine
end

section
/-! The stream properties (45_properties.md R80, R81, R83, R87). A run over WRITE commands is one WRITE of the whole, from any
state and also behind a RESET; and a command that writes no state may stand between two of them. -/

namespace Sys2Proof.Machine

/-! ## Chunks -/

/-- A run over WRITE commands that end the command stream. -/
theorem run_writes_to_end (pieces : List (List Byte)) {s : State} (idle : s.idle) (fit : ∀ p ∈ pieces, p.length ≤ lmax)
    (input : s.input = pieces.flatMap writeCommand) : run pieces.length s = .next (s.written pieces []) :=
  run_writes pieces [] 0 idle fit (input.trans (List.append_nil _).symm)

/-- Settles O34: the pieces below the counter limit are one WRITE, and the whole is a piece where it fits. -/
theorem chunkingDoesNotMatter : Obligations.ChunkingDoesNotMatter := by
  unfold Obligations.ChunkingDoesNotMatter
  intro s pieces idle fit limit input
  have ⟨pending, reset⟩ := idle
  have whole : (s.written pieces []).acc = s.acc.write Config.chip pieces.flatten :=
    Accumulator.foldl_write_eq_write_flatten Config.chip pieces s.acc limit
  refine ⟨_, run_writes_to_end pieces idle fit input, rfl, ⟨pending, reset⟩, congrArg Accumulator.logical whole,
    congrArg (Accumulator.digest Config.chip) whole, fun fits => ?_⟩
  have one := run_writes_to_end [pieces.flatten] (s := { s with input := writeCommand pieces.flatten }) ⟨pending, reset⟩
    (List.forall_mem_singleton.mpr fits) (List.flatMap_singleton ..).symm
  exact ⟨_, one, congrArg Accumulator.logical whole.symm, congrArg (Accumulator.digest Config.chip) whole.symm⟩

/-! ## RESET before the stream -/

/-- A run over WRITE commands and a SUM that ends the command stream. -/
theorem run_writes_sum (pieces : List (List Byte)) {s : State} (idle : s.idle) (fit : ∀ p ∈ pieces, p.length ≤ lmax)
    (input : s.input = pieces.flatMap writeCommand ++ encode .sum) :
    run (pieces.length + 1) s = .next ((s.written pieces []).answerDigest Config.chip) :=
  (run_writes pieces (encode .sum) 1 idle fit input).trans (run_succ_of_encode 0 idle rfl (List.append_nil _).symm rfl)

/-- What SUM appends to the responses (42_accumulator.md R61). -/
theorem State.answerDigest_output (s : State) :
    (s.answerDigest Config.chip).output = s.output ++ ([0, 0, 0, 32] ++ (s.acc.digest Config.chip).toList) := rfl

theorem State.written_singleton_output (s : State) (d rest : List Byte) :
    (s.written [d] rest).output =
      s.output ++ [0, BitVec.ofNat 8 (d.length / 65536), BitVec.ofNat 8 (d.length / 256), BitVec.ofNat 8 d.length] := by
  rw [← responseWord_ok, ← List.flatMap_singleton (fun p : List Byte => responseWord .ok p.length) d]
  rfl

/-- Settles O37: RESET leaves the fresh logical state, on which WRITE and SUM depend alone. -/
theorem hashingAfterResetIsHashingAfresh : Obligations.HashingAfterResetIsHashingAfresh := by
  unfold Obligations.HashingAfterResetIsHashingAfresh
  intro s b idle fits input
  have fit : ∀ p ∈ [b], p.length ≤ lmax := List.forall_mem_singleton.mpr fits
  have after_reset := run_reset_writes_sum [b] idle fit (by rw [input, List.append_assoc, List.flatMap_singleton])
  have afresh := run_writes_sum [b] (s := { State.reset with input := writeCommand b ++ encode .sum }) ⟨rfl, rfl⟩ fit
    (congrArg (· ++ encode .sum) (List.flatMap_singleton ..).symm)
  have same : (s.rewritten [b]).acc.logical = (absorb Config.chip b).logical := by
    have short : b.length < 2 ^ 64 := Nat.lt_of_le_of_lt fits (by decide)
    simpa using s.rewritten_logical [b] (by simpa using short)
  have fresh_output := State.answerDigest_output (State.written { State.reset with input := writeCommand b ++ encode .sum } [b] [])
  rw [State.written_singleton_output] at fresh_output
  refine ⟨_, _, after_reset, afresh, ?both_outputs, same, fresh_output, rfl⟩
  rw [fresh_output, State.answerDigest_output, Accumulator.digest_congr Config.chip same, State.rewritten,
    State.written_singleton_output]
  exact List.append_assoc ..

/-! ## A command that writes no state -/

/-- A command that writes no state changes only the two streams; where it is SUM, the answer is the digest. -/
theorem step_of_readsOnly_sum {m : List Byte} (reads : ReadsOnly m) {s : State} {rest : List Byte} (idle : s.idle)
    (input : s.input = m ++ rest) :
    ∃ answer, step s = .next { s with input := rest, output := s.output ++ answer } ∧
      (m = encode .sum → answer = [0, 0, 0, 32] ++ (s.acc.digest Config.chip).toList) := by
  by_cases sum : m = encode .sum
  · exact ⟨_, step_of_sum idle (sum ▸ input), fun _ => rfl⟩
  · obtain ⟨st, v, p, steps⟩ := step_of_readsOnly reads idle input
    rw [s.withInput_respond_of_idle idle] at steps
    exact ⟨_, steps, fun is_sum => absurd is_sum sum⟩

/-- A run over WRITE `a`, a command that writes no state, WRITE `b` and a SUM that ends the command stream. -/
theorem run_write_readsOnly_write_sum {a b m : List Byte} (fits_a : a.length ≤ lmax) (fits_b : b.length ≤ lmax)
    (reads : ReadsOnly m) {s : State} (idle : s.idle)
    (input : s.input = writeCommand a ++ m ++ writeCommand b ++ encode .sum) :
    ∃ answer, run 4 s = .next ((State.written { s.written [a] [] with
        output := (s.written [a] []).output ++ answer } [b] []).answerDigest Config.chip) ∧
      (m = encode .sum → answer = [0, 0, 0, 32] ++ ((s.acc.write Config.chip a).digest Config.chip).toList) := by
  have first := run_writes [a] (m ++ (writeCommand b ++ encode .sum)) 3 idle (List.forall_mem_singleton.mpr fits_a)
    (by rw [input, List.flatMap_singleton]; simp only [List.append_assoc])
  obtain ⟨answer, steps, is_digest⟩ := step_of_readsOnly_sum reads (s := s.written [a] (m ++ (writeCommand b ++ encode .sum)))
    idle rfl
  refine ⟨answer, first.trans ((run_succ 2 steps).trans ?_), is_digest⟩
  exact run_writes_sum [b] idle (List.forall_mem_singleton.mpr fits_b)
    (congrArg (· ++ encode .sum) (List.flatMap_singleton ..).symm)

/-- Settles O39: the two WRITEs below the counter limit are one WRITE of `a ++ b`. -/
theorem sumDoesNotDisturbTheStream : Obligations.SumDoesNotDisturbTheStream := by
  unfold Obligations.SumDoesNotDisturbTheStream
  intro a b m fits_a fits_b reads
  obtain ⟨answer, runs, is_digest⟩ := run_write_readsOnly_write_sum fits_a fits_b reads
    (s := { State.reset with input := writeCommand a ++ m ++ writeCommand b ++ encode .sum }) ⟨rfl, rfl⟩ rfl
  have whole : ((Accumulator.fresh.write Config.chip a).write Config.chip b) = absorb Config.chip (a ++ b) := by
    have limit : Accumulator.fresh.len.toNat + a.length < 2 ^ 64 := by
      have zero : Accumulator.fresh.len.toNat = 0 := rfl
      unfold lmax at fits_a
      omega
    exact (Accumulator.write_append Config.chip a b Accumulator.fresh limit).symm
  refine ⟨_, answer, runs, ?output, is_digest, congrArg Accumulator.logical whole, rfl, rfl, rfl⟩
  rw [State.answerDigest_output, State.written_singleton_output, digestOf, ← whole]
  simp only [State.written_singleton_output]
  rfl

end Sys2Proof.Machine
end

section
/-! The digest properties (45_properties.md R84, R88). By the closed form a digest lane reads the first byte of the stream and
one column: the bytes at the lane's offset in each block. The lane is their exclusive or times the lane's coefficient, so it is
linear in the stream, and what keeps the first byte and the exclusive or of each column that is read keeps the digest. -/

namespace Sys2Proof.Machine

/-! ## The exclusive or of a list -/

theorem xorAll_cons (b : Byte) (bs : List Byte) : xorAll (b :: bs) = b ^^^ xorAll bs := by
  have commuted : xorAll (b :: bs) = bs.foldl (· ^^^ ·) (b ^^^ 0) := congrArg (bs.foldl _) (BitVec.xor_comm 0 b)
  exact commuted.trans List.foldl_assoc

theorem xorAll_append (bs bs' : List Byte) : xorAll (bs ++ bs') = xorAll bs ^^^ xorAll bs' := by
  induction bs with
  | nil => exact (BitVec.zero_xor).symm
  | cons b bs ih => rw [List.cons_append, xorAll_cons, xorAll_cons, ih, BitVec.xor_assoc]

theorem xorAll_map_gfadd {α : Type} (f g : α → Byte) (xs : List α) :
    xorAll (xs.map fun x => gfadd (f x) (g x)) = gfadd (xorAll (xs.map f)) (xorAll (xs.map g)) := by
  induction xs with
  | nil => exact (gfadd_zero 0).symm
  | cons x xs ih => simp only [List.map_cons, xorAll_cons, ih]; exact gfadd_gfadd_gfadd_comm ..

theorem xorAll_map_gfmul (c : Config) {α : Type} (f : α → Byte) (k : Byte) (xs : List α) :
    xorAll (xs.map fun x => gfmul c.poly (f x) k) = gfmul c.poly (xorAll (xs.map f)) k := by
  induction xs with
  | nil => exact (zero_gfmul c k).symm
  | cons x xs ih => simp only [List.map_cons, xorAll_cons, ih]; exact (gfadd_gfmul c.poly_bit8 ..).symm

/-- Adding a byte to one entry adds it to the exclusive or. -/
theorem xorAll_modify (v : Byte) {bs : List Byte} {k : Nat} (lt : k < bs.length) :
    xorAll (bs.modify k (· ^^^ v)) = gfadd (xorAll bs) v := by
  induction bs generalizing k with
  | nil => cases lt
  | cons b bs ih =>
    cases k with
    | zero => simp only [List.modify_zero_cons, xorAll_cons, gfadd]; ac_rfl
    | succ k =>
      rw [List.modify_succ_cons, xorAll_cons, xorAll_cons, ih (Nat.lt_of_succ_lt_succ lt), gfadd, gfadd, BitVec.xor_assoc]

/-! ## Columns -/

/-- The bytes at offset `j` of the first `m` blocks of `d`, with `d` read as followed by zeros. -/
def column (d : List Byte) (m j : Nat) : List Byte := (List.range m).map fun k => d.getD (64 * k + j) 0

/-- The closed form reads the first byte and the lane's column. -/
theorem closedLane_eq_column (c : Config) (d : List Byte) (m : Nat) (i : Fin 32) :
    closedLane c d m i = gfmul c.poly (d.getD 0 0 ^^^ xorAll (column d m (c.perm[i.val]).val)) c.coef[i.val] := rfl

/-- The columns of a stream behind whole blocks continue those of the blocks. -/
theorem column_append {u : List Byte} {n : Nat} (blocks : u.length = 64 * n) (v : List Byte) (m : Nat) {j : Nat} (lt : j < 64) :
    column (u ++ v) (n + m) j = column u n j ++ column v m j := by
  rw [column, List.range_add, List.map_append, List.map_map]
  refine congrArg₂ (· ++ ·) (List.map_congr_left fun k mem => ?head) (List.map_congr_left fun k _ => ?rest)
  case head =>
    have inside : 64 * k + j < u.length := by have := List.mem_range.mp mem; omega
    exact List.getD_append _ _ _ _ inside
  case rest =>
    have behind : 64 * (n + k) + j = u.length + (64 * k + j) := by omega
    rw [Function.comp_apply, behind, List.getD_append_right _ _ _ _ (Nat.le_add_right _ _), Nat.add_sub_cancel_left]

/-! ## The lanes of the digest -/

/-- A block behind the end of the stream is zero and changes no lane. -/
theorem closedLane_succ_of_length_le (c : Config) {d : List Byte} {m : Nat} (covered : d.length ≤ 64 * m) (i : Fin 32) :
    closedLane c d (m + 1) i = closedLane c d m i := by
  rw [closedLane_succ, List.getD_eq_default _ _ (by omega), zero_gfmul, gfadd_zero]

/-- Every lane of the digest is the closed form over any number of blocks that cover the stream. -/
theorem digestOf_getElem (c : Config) {d : List Byte} {m : Nat} (limit : d.length < 2 ^ 64) (covered : d.length ≤ 64 * m)
    (i : Fin 32) : (digestOf c d)[i] = closedLane c d m i := by
  refine ((absorb_holds c d limit).digest_getElem i).trans ?_
  have enough : (d.length + 63) / 64 ≤ m := by omega
  induction m, enough using Nat.le_induction with
  | base => rfl
  | succ m enough ih => rw [closedLane_succ_of_length_le c (by omega), ih (by omega)]

/-- Two digests are equal where the closed forms over blocks that cover both streams are. -/
theorem digestOf_eq (c : Config) {d e : List Byte} (m : Nat) (limit : d.length < 2 ^ 64) (limit' : e.length < 2 ^ 64)
    (covered : d.length ≤ 64 * m) (covered' : e.length ≤ 64 * m)
    (lanes : ∀ i : Fin 32, closedLane c d m i = closedLane c e m i) : digestOf c d = digestOf c e := by
  ext1 i hi
  exact (digestOf_getElem c limit covered ⟨i, hi⟩).trans
    ((lanes ⟨i, hi⟩).trans (digestOf_getElem c limit' covered' ⟨i, hi⟩).symm)

/-! ## Linear combinations -/

section
variable (c : Config) {shards : List (Byte × List Byte)} {len : Nat} (lengths : ∀ kd ∈ shards, kd.2.length = len)
include lengths

/-- A byte of the combination is the combination of the bytes, also behind the end, where all are zero. -/
theorem combine_getD (q : Nat) :
    (combine c.poly shards len).getD q 0 = xorAll (shards.map fun kd => gfmul c.poly kd.1 (kd.2.getD q 0)) := by
  by_cases inside : q < len
  · have lt : q < (combine c.poly shards len).length := by rwa [combine, List.length_map, List.length_range]
    rw [List.getD_eq_getElem _ _ lt]
    simp only [combine, List.getElem_map, List.getElem_range]
  · have zeros : (shards.map fun kd => gfmul c.poly kd.1 (kd.2.getD q 0)) = shards.map fun kd => gfmul c.poly kd.1 0 :=
      List.map_congr_left fun kd mem => by rw [List.getD_eq_default _ _ (by have := lengths kd mem; omega)]
    rw [zeros, xorAll_map_gfmul, gfmul_zero c.poly_bit8]
    exact List.getD_eq_default _ _ (by simp only [combine, List.length_map, List.length_range]; omega)

/-- The closed form is linear in the stream: so are the lane of the seed and what each block adds. -/
theorem closedLane_combine (m : Nat) (i : Fin 32) :
    closedLane c (combine c.poly shards len) m i = xorAll (shards.map fun kd => gfmul c.poly kd.1 (closedLane c kd.2 m i)) := by
  induction m with
  | zero => simp only [closedLane_zero, combine_getD c lengths, ← gfmul_assoc c.poly_bit8, xorAll_map_gfmul]
  | succ m ih =>
    simp only [closedLane_succ, gfmul_gfadd c.poly_bit8, xorAll_map_gfadd, ih, combine_getD c lengths,
      ← gfmul_assoc c.poly_bit8 _ _ c.coef[i.val], xorAll_map_gfmul]

end

/-- Settles O40: lane by lane, over as many blocks as cover the common length. -/
theorem digestIsAHomomorphism : Obligations.DigestIsAHomomorphism := by
  unfold Obligations.DigestIsAHomomorphism
  intro c len shards limit lengths
  refine List.ext_getElem (by simp [combine]) fun i hi _ => ?_
  have lt : i < 32 := by simpa using hi
  have combined_length : (combine c.poly shards len).length = len := by simp [combine]
  have lane : (digestOf c (combine c.poly shards len))[i] =
      xorAll (shards.map fun kd => gfmul c.poly kd.1 (closedLane c kd.2 len ⟨i, lt⟩)) :=
    (digestOf_getElem c (by omega) (by omega) ⟨i, lt⟩).trans (closedLane_combine c lengths len ⟨i, lt⟩)
  rw [Vector.getElem_toList, lane]
  simp only [combine, List.getElem_map, List.getElem_range, List.map_map]
  refine congrArg xorAll (List.map_congr_left fun kd mem => ?_)
  have shard_length := lengths kd mem
  have shard_lane : (digestOf c kd.2)[i] = closedLane c kd.2 len ⟨i, lt⟩ :=
    digestOf_getElem c (by omega) (by omega) ⟨i, lt⟩
  rw [Function.comp_apply, List.getD_eq_getElem _ _ (by simpa using lt), Vector.getElem_toList, shard_lane]

/-! ## Zeros at the end -/

theorem append_zeros_getD (d : List Byte) (k q : Nat) : (d ++ List.replicate k 0).getD q 0 = d.getD q 0 := by
  by_cases inside : q < d.length
  · exact List.getD_append _ _ _ _ inside
  · have behind : d.length ≤ q := Nat.le_of_not_lt inside
    rw [List.getD_append_right _ _ _ _ behind, List.getD_eq_default _ _ behind, List.getD_eq_getElem?_getD,
      List.getElem?_replicate]
    split <;> rfl

theorem digestOf_nil (c : Config) : digestOf c [] = Vector.replicate 32 0 := by
  ext1 i hi
  have lane := (digestOf_getElem c (d := []) (m := 0) (by decide) (by decide) ⟨i, hi⟩).trans (closedLane_zero c [] ⟨i, hi⟩)
  rw [Vector.getElem_replicate]
  exact lane.trans (zero_gfmul c _)

/-- A stream is read as followed by zeros anyway. -/
theorem digestOf_append_zeros (c : Config) (d : List Byte) (k : Nat) (limit : d.length + k < 2 ^ 64) :
    digestOf c (d ++ List.replicate k 0) = digestOf c d := by
  have length : (d ++ List.replicate k (0 : Byte)).length = d.length + k := by simp
  exact digestOf_eq c (d.length + k) (by omega) (by omega) (by omega) (by omega) fun i =>
    closedLane_congr c (append_zeros_getD d k 0) (fun q _ => append_zeros_getD d k q) i

/-- Settles O41: an all-zero input is the empty input with zeros behind it. -/
theorem trailingZerosDoNotChangeTheDigest : Obligations.TrailingZerosDoNotChangeTheDigest := by
  unfold Obligations.TrailingZerosDoNotChangeTheDigest
  intro c d k limit
  have only_zeros := digestOf_append_zeros c [] k (by rw [List.length_nil]; omega)
  exact ⟨digestOf_append_zeros c d k limit, only_zeros.trans (digestOf_nil c)⟩

/-! ## Bytes that no lane reads -/

theorem getD_zero_of_head? {d e : List Byte} (same : d.head? = e.head?) : d.getD 0 0 = e.getD 0 0 := by
  rw [List.getD_eq_getElem?_getD, List.getD_eq_getElem?_getD, ← List.head?_eq_getElem?, ← List.head?_eq_getElem?, same]

/-- Streams with one first byte and the same columns where the lanes read them have one closed form. -/
theorem closedLane_congr_column (c : Config) {d e : List Byte} {m : Nat} (i : Fin 32) (first : d.head? = e.head?)
    (columns : xorAll (column d m (c.perm[i.val]).val) = xorAll (column e m (c.perm[i.val]).val)) :
    closedLane c d m i = closedLane c e m i := by
  rw [closedLane_eq_column, closedLane_eq_column, getD_zero_of_head? first, columns]

/-- Settles O42: every byte of the columns that are read is the same. -/
theorem unreadOffsetsDoNotAffectTheDigest : Obligations.UnreadOffsetsDoNotAffectTheDigest := by
  unfold Obligations.UnreadOffsetsDoNotAffectTheDigest
  intro c d e limit same_length first read
  refine digestOf_eq c d.length limit (by omega) (by omega) (by omega) fun i => closedLane_congr_column c i first ?_
  refine congrArg xorAll (List.map_congr_left fun k _ => ?_)
  have same : d[64 * k + (c.perm[i.val]).val]? = e[64 * k + (c.perm[i.val]).val]? := by
    by_cases inside : 64 * k + (c.perm[i.val]).val < d.length
    · exact read _ inside ⟨i, by omega⟩
    · rw [List.getElem?_eq_none (by omega), List.getElem?_eq_none (by omega)]
  rw [List.getD_eq_getElem?_getD, List.getD_eq_getElem?_getD, same]

/-! ## Swapped blocks -/

/-- The column of whole blocks followed by a stream, added up. -/
theorem xorAll_column_append {u : List Byte} {n : Nat} (blocks : u.length = 64 * n) (v : List Byte) (m : Nat) {j : Nat}
    (lt : j < 64) : xorAll (column (u ++ v) (n + m) j) = xorAll (column u n j) ^^^ xorAll (column v m j) := by
  rw [column_append blocks v m lt, xorAll_append]

/-- The order of two blocks makes no difference to the exclusive or of a column. -/
theorem xorAll_column_swap {p x q y : List Byte} {n k : Nat} (blocks_p : p.length = 64 * n) (block_x : x.length = 64 * 1)
    (blocks_q : q.length = 64 * k) (block_y : y.length = 64 * 1) (r : List Byte) (m : Nat) {j : Nat} (lt : j < 64) :
    xorAll (column (p ++ x ++ q ++ y ++ r) (n + (1 + (k + (1 + m)))) j) =
      xorAll (column (p ++ y ++ q ++ x ++ r) (n + (1 + (k + (1 + m)))) j) := by
  simp only [List.append_assoc, xorAll_column_append blocks_p _ _ lt, xorAll_column_append block_x _ _ lt,
    xorAll_column_append blocks_q _ _ lt, xorAll_column_append block_y _ _ lt]
  ac_rfl

/-- Swapping two blocks keeps the digest where it keeps the first byte. -/
theorem digestOf_swap (c : Config) {p x q y r : List Byte} (blocks_p : 64 ∣ p.length) (block_x : x.length = 64)
    (blocks_q : 64 ∣ q.length) (block_y : y.length = 64) (limit : (p ++ x ++ q ++ y ++ r).length < 2 ^ 64)
    (first : p ≠ [] ∨ x.head? = y.head?) : digestOf c (p ++ x ++ q ++ y ++ r) = digestOf c (p ++ y ++ q ++ x ++ r) := by
  obtain ⟨n, length_p⟩ := blocks_p
  obtain ⟨k, length_q⟩ := blocks_q
  have first_byte : (p ++ x ++ q ++ y ++ r).head? = (p ++ y ++ q ++ x ++ r).head? := by
    obtain ne | same := first
    · obtain ⟨b, p, rfl⟩ := List.exists_cons_of_ne_nil ne
      rfl
    · simp only [List.head?_append, same]
  have same_length : (p ++ y ++ q ++ x ++ r).length = (p ++ x ++ q ++ y ++ r).length := by
    simp only [List.length_append]
    omega
  have covered : (p ++ x ++ q ++ y ++ r).length ≤ 64 * (n + (1 + (k + (1 + r.length)))) := by
    simp only [List.length_append]
    omega
  exact digestOf_eq c _ limit (same_length ▸ limit) covered (same_length ▸ covered) fun i =>
    closedLane_congr_column c i first_byte
      (xorAll_column_swap length_p block_x length_q block_y r r.length (c.perm[i.val]).isLt)

/-! ## One byte added at two places -/

theorem modify_getD (f : Byte → Byte) {d : List Byte} {q : Nat} (lt : q < d.length) (r : Nat) :
    (d.modify q f).getD r 0 = if q = r then f (d.getD r 0) else d.getD r 0 := by
  simp only [List.getD_eq_getElem?_getD, List.getElem?_modify]
  by_cases same : q = r
  · subst same
    simp [lt]
  · simp [same]

/-- Adding a byte behind the first adds it, times the lane's coefficient, to the lanes that read its offset. -/
theorem closedLane_modify (c : Config) {d : List Byte} {q m : Nat} (v : Byte) (pos : 0 < q) (lt : q < d.length)
    (covered : d.length ≤ 64 * m) (i : Fin 32) :
    closedLane c (d.modify q (· ^^^ v)) m i =
      gfadd (closedLane c d m i) (if (c.perm[i.val]).val = q % 64 then gfmul c.poly v c.coef[i.val] else 0) := by
  have bytes := modify_getD (· ^^^ v) lt
  have first : (d.modify q (· ^^^ v)).getD 0 0 = d.getD 0 0 := (bytes 0).trans (if_neg (by omega))
  rw [closedLane_eq_column, closedLane_eq_column, first]
  split
  · next reads =>
    have column_modified : column (d.modify q (· ^^^ v)) m (c.perm[i.val]).val =
        (column d m (c.perm[i.val]).val).modify (q / 64) (· ^^^ v) := by
      refine List.ext_getElem (by simp [column]) fun k _ _ => ?_
      simp only [column, List.getElem_map, List.getElem_range, List.getElem_modify, bytes]
      exact if_congr (by omega) rfl rfl
    have in_column : q / 64 < (column d m (c.perm[i.val]).val).length := by
      rw [column, List.length_map, List.length_range]
      omega
    rw [column_modified, xorAll_modify v in_column, ← gfadd_gfmul c.poly_bit8]
    exact congrArg (gfmul c.poly · c.coef[i.val]) (BitVec.xor_assoc ..).symm
  · next unread =>
    have column_kept : column (d.modify q (· ^^^ v)) m (c.perm[i.val]).val = column d m (c.perm[i.val]).val :=
      List.map_congr_left fun k _ => (bytes _).trans (if_neg (by omega))
    rw [column_kept, gfadd_zero]

/-- Settles O43: two blocks add up in either order, and a byte added twice to a lane cancels. -/
theorem blockSwapsDoNotChangeTheDigest : Obligations.BlockSwapsDoNotChangeTheDigest := by
  unfold Obligations.BlockSwapsDoNotChangeTheDigest
  refine fun c => ⟨fun p x q y r => digestOf_swap c, fun d m n v limit pos lt inside same_offset => ?_⟩
  have length_once : (d.modify m (· ^^^ v)).length = d.length := List.length_modify ..
  have length_twice : ((d.modify m (· ^^^ v)).modify n (· ^^^ v)).length = d.length :=
    (List.length_modify ..).trans length_once
  refine digestOf_eq c d.length (by omega) limit (by omega) (by omega) fun i => ?_
  rw [closedLane_modify c v (by omega) (by omega) (by omega), closedLane_modify c v pos (by omega) (by omega), same_offset,
    gfadd_gfadd_cancel]

end Sys2Proof.Machine
end

section
/-! The exception statements (60_exceptions.md R93, R95, R99; 30_encoding.md R35): what an illegal word is answered, and that no
step stops the block. -/

namespace Sys2Proof.Machine

/-- Settles O7: `IllegalCommand` is a response with value 0, from the state that has taken the four bytes of the word. -/
theorem illegalWordIsAnsweredAndDropped : Obligations.IllegalWordIsAnsweredAndDropped := by
  unfold Obligations.IllegalWordIsAnsweredAndDropped
  intro s b0 b1 b2 b3 rest idle input no_row
  have word : s.input = beBytes 4 (wordOfBytes b0 b1 b2 b3).toNat ++ rest := by
    rw [input, beBytes_wordOfBytes]
    rfl
  have answer : s.illegalWord rest = { s with input := rest, output := s.output ++ [3, 0, 0, 0] } :=
    s.withInput_respond_of_idle idle rest .illegalCommand 0 []
  rw [step_of_no_row idle no_row word, answer]

/-- No command stops the block: it waits for its payload or it answers (60_exceptions.md R95). -/
theorem exists_exec_eq_next (i : Instr) (s : State) : ∃ t, exec i s = .next t := by
  obtain ⟨-, waits⟩ | ⟨-, t, answers, -⟩ := exec_waits_or_answers i s
  · exact ⟨_, waits⟩
  · exact ⟨t, answers⟩

/-- Settles O13: apart from the command it runs, a step is a reset, the answer to an illegal word, or nothing. -/
theorem everyStepAnswersANextState : Obligations.EveryStepAnswersANextState := by
  unfold Obligations.EveryStepAnswersANextState
  intro s
  obtain reset | ⟨i, -, runs⟩ | ⟨-, i, rest, -, runs⟩ | ⟨rest, illegal⟩ | ⟨-, waits⟩ := step_cases s
  · exact ⟨_, reset⟩
  · rw [runs]
    exact exists_exec_eq_next i s
  · rw [runs]
    exact exists_exec_eq_next i (s.withInput rest)
  · exact ⟨_, illegal⟩
  · exact ⟨s, waits⟩

end Sys2Proof.Machine
end

section
/-! The reset statements (70_reset_and_hazards.md R100, R101): the values after hardware reset, and that it wins over whatever is
in progress. -/

namespace Sys2Proof.Machine

/-- Settles O11: the step looks at the reset line before it looks at the decoder. -/
theorem hardwareResetAbandonsTheCommand : Obligations.HardwareResetAbandonsTheCommand := by
  unfold Obligations.HardwareResetAbandonsTheCommand
  exact fun s => step_of_resetLine s.hostReset_resetLine

/-- All-zero words have all-zero bytes. -/
theorem stateByte_zero (i : Fin 32) : stateByte (Vector.replicate 8 0) i = 0 := by
  rw [stateByte, Vector.getElem_replicate]
  exact BitVec.extractLsb'_zero

/-- Settles O12: words, bytes and counter are read off the fresh context, and the derived `NX`, `FRESH` and valid bytes off the
counter. -/
theorem resetStateIsTheFreshState : Obligations.ResetStateIsTheFreshState := by
  unfold Obligations.ResetStateIsTheFreshState
  have nx : State.reset.acc.nx = 0 := rfl
  have words (j : Fin 8) : State.reset.acc.h[j] = 0 := Vector.getElem_replicate j.isLt
  have no_valid : State.reset.acc.valid = [] := List.eq_nil_of_length_eq_zero ((Accumulator.valid_length _).trans nx)
  exact ⟨words, stateByte_zero, Accumulator.fresh_len, nx, rfl, no_valid, State.reset_pending, State.reset_output⟩

/-- Settles O14: the invariant speaks of a command in progress, and after reset there is none. -/
theorem decoderInvariantHoldsAtReset : Obligations.DecoderInvariantHoldsAtReset := by
  unfold Obligations.DecoderInvariantHoldsAtReset
  exact State.inv_of_pending_eq_none State.reset_pending

end Sys2Proof.Machine
end
